-- ==== Sys2Proof/Word.lean ====
section
/-! DEFINITION. The bit-vector types of the block: raw values, request and response words, operand fields. -/

namespace Sys2Proof

/-- One byte of a word carried on a byte-wide platform (20_memory.md R42). -/
abbrev Byte := BitVec 8

/-- A raw-domain value, `W_RAW = 11` bits (10_state.md R21, 30_encoding.md R60). -/
abbrev Raw := BitVec 11

/-- A request word, `W_REQ = 192` bits (30_encoding.md R68). -/
abbrev Request := BitVec 192

/-- A response word, `W_RSP = 16` bits (30_encoding.md R70). -/
abbrev Response := BitVec 16

/-- The slot index operand of `READ`, 8 bits (30_encoding.md R69, format X). -/
abbrev IndexOperand := BitVec 8

/-- The operand of `CDEC.*` and `CENC`, `W_CODEC_IN = 16` bits (30_encoding.md R69, format V). -/
abbrev ValueOperand := BitVec 16

end Sys2Proof
end

