-- ==== Sys2Proof/Config.lean ====
section
/-! DEFINITION. The constants of 00_scope.md R9, the parameters of R10 with this hardware's values, and the one free value. -/

namespace Sys2Proof

/-- Lowest raw-domain value (R9 `RAW_MIN`). -/
abbrev Config.rawMin : Nat := 0
/-- Highest raw-domain value (R9 `RAW_MAX`). -/
abbrev Config.rawMax : Nat := 2047
/-- Raw sentinel of a low digital channel; lower bound of the safe and the encode clamp (R9 `DIG_MIN`). -/
abbrev Config.digMin : Nat := 173
/-- Raw sentinel of a high digital channel; upper bound of the safe and the encode clamp (R9 `DIG_MAX`). -/
abbrev Config.digMax : Nat := 1812
/-- Numerator of the decode scale (R9 `SCALE_NUM`). -/
abbrev Config.scaleNum : Nat := 5
/-- Denominator of the decode scale (R9 `SCALE_DEN`). -/
abbrev Config.scaleDen : Nat := 8
/-- Offset added after scaling (R9 `NORM_OFFSET`). -/
abbrev Config.normOffset : Nat := 880
/-- Addend before the encode division by 5 (R9 `ENC_ROUND`). -/
abbrev Config.encRound : Nat := 4
/-- The normalized mid-stick constant (R9 `NORM_MID`). -/
abbrev Config.normMid : Nat := 1500
/-- Value every slot takes at initialisation, computed as R9 `RAW_CENTER` and R132 compute it. -/
abbrev Config.rawCenter : Nat := (16 * Config.normMid) / 10 - 1408

/-- Lowest result of decode under policy full (R9 `NORM_FULL_MIN`). -/
abbrev Config.normFullMin : Nat := 880
/-- Highest result of decode under policy full (R9 `NORM_FULL_MAX`). -/
abbrev Config.normFullMax : Nat := 2159
/-- Lowest result of decode under policy safe (R9 `NORM_SAFE_MIN`). -/
abbrev Config.normSafeMin : Nat := 988
/-- Highest result of decode under policy safe (R9 `NORM_SAFE_MAX`). -/
abbrev Config.normSafeMax : Nat := 2012

/-- Analog fields per record (R9 `N_ANALOG`). -/
abbrev Config.nAnalog : Nat := 16
/-- Synthetic digital slots (R9 `N_DIGITAL`). -/
abbrev Config.nDigital : Nat := 2
/-- Slot offset of the high half in extended mode (R9 `HIGH_BASE`). -/
abbrev Config.highBase : Nat := 16
/-- First digital slot in standard mode (R9 `STD_DIG_BASE`). -/
abbrev Config.stdDigBase : Nat := 16
/-- First digital slot in extended mode (R10 `EXT_DIG_BASE`; 90_conflicts.md C2, decision D9). -/
abbrev Config.extDigBase : Nat := 16

/-- Visible slots in standard mode (R10 `N(STD)`): the analog and the digital slots. -/
abbrev Config.nStd : Nat := Config.nAnalog + Config.nDigital
/-- Visible slots in extended mode (R10 `N(EXT)`, in R10's general form). -/
abbrev Config.nExt : Nat := max (Config.highBase + 16) (Config.extDigBase + 2)
/-- Physical slots (R10 `N_PHYS`, decision D8). -/
abbrev Config.nPhys : Nat := 32

/-- FREE VALUE: what slot `i` holds after the `draw`-th reset. 10_state.md R32 leaves the slots unspecified
after a reset (93_implementation_defined.md U6: any value), so the constant has no body and nothing can be
proved about which value it is (log entry 4). -/
opaque Config.resetSlot : (draw : Nat) → (i : Fin 32) → Raw

end Sys2Proof
end

