-- ==== Sys2Proof/Syntax.lean ====
section
/-! DEFINITION. The nine operations of 30_encoding.md R72 with their operands, the outcome of decoding a request word, and
the source form of the textual syntax of R80. -/

namespace Sys2Proof

/-- The mode discriminator (10_state.md R25): standard or extended. -/
inductive Mode where
  | std
  | ext
  deriving DecidableEq, Repr

/-- The two named decode policies (30_encoding.md R65): `full` clamps to [0, 2047], `safe` to [173, 1812]. -/
inductive Policy where
  | full
  | safe
  deriving DecidableEq, Repr

/-- The half of an extended-mode frame pair (30_encoding.md R65): `low` is `isHighHalf` false. -/
inductive Half where
  | low
  | high
  deriving DecidableEq, Repr

/-- The RawChannelRecord (30_encoding.md R63): sixteen analog fields in declared order and four independent predicates.
The unused flag bits `F[7:4]` carry no predicate and are not kept (R67, R77; log entry 8). -/
structure Record where
  chans : Vector Raw 16
  digitalChannel1 : Bool
  digitalChannel2 : Bool
  signalLoss : Bool
  failsafeActive : Bool
  deriving DecidableEq, Repr

/-- The nine operations, one constructor per row of the opcode table (30_encoding.md R72). Every field has the width
R69 gives it, so every term of this type is an operation the encoding can carry. -/
inductive Instr where
  /-- `INIT.STD` (R130). -/
  | initStd
  /-- `INIT.EXT` (R131). -/
  | initExt
  /-- `DECSTD` (R94). -/
  | decStd (r : Record)
  /-- `DECEXT.LO` (R95). -/
  | decExtLo (r : Record)
  /-- `DECEXT.HI` (R96). -/
  | decExtHi (r : Record)
  /-- `READ` (R134). -/
  | read (idx : IndexOperand)
  /-- `CDEC.FULL` (R112). -/
  | cdecFull (val : ValueOperand)
  /-- `CDEC.SAFE` (R113). -/
  | cdecSafe (val : ValueOperand)
  /-- `CENC` (R114). -/
  | cenc (val : ValueOperand)
  deriving DecidableEq, Repr

/-- Why the decoder turns a request word away (30_encoding.md R73). -/
inductive DecodeRefusal where
  /-- `REQ[7:4]` is not zero (R75). -/
  | reservedBits
  /-- `op` is 6 or 7 (R74). -/
  | reservedOpcode
  /-- `m` is 1 on `DECSTD`, `READ` or `CENC` (R76). -/
  | reservedModifier
  deriving DecidableEq, Repr

/-- What a request word is: exactly one operation, or refused by name (R73: the decoder is total). -/
inductive Decoded where
  | instr (i : Instr)
  | rejected (r : DecodeRefusal)
  deriving DecidableEq, Repr

/-- The flag names of the textual syntax (30_encoding.md R80). -/
inductive FlagName where
  | dg1
  | dg2
  | loss
  | fs
  deriving DecidableEq, Repr

/-- One request of the textual syntax (30_encoding.md R80) after parsing: numbers as written, channel lists with the
run-length shorthand expanded. -/
inductive Source where
  | initStd
  | initExt
  | decStd (chans : List Nat) (flags : List FlagName)
  | decExtLo (chans : List Nat) (flags : List FlagName)
  | decExtHi (chans : List Nat) (flags : List FlagName)
  | read (idx : Nat)
  | cdecFull (raw : Nat)
  | cdecSafe (raw : Nat)
  | cenc (norm : Nat)
  deriving DecidableEq, Repr

end Sys2Proof
end

