-- ==== Sys2Proof/WellFormed.lean ====
section
/-! DEFINITION. Well-formed request words (30_encoding.md R73 to R76) and well-formed source requests (R80). An `Instr` needs
no check of its own: its fields have exactly the widths of R69. -/

namespace Sys2Proof

/-- `REQ[7:4]` is zero (R75). -/
def Request.reservedBitsClear (w : Request) : Bool := w.extractLsb' 4 4 == 0#4

/-- `op` is one of the six assigned opcodes (R74: 6 and 7 are reserved). -/
def Request.opcodeAssigned (w : Request) : Bool := decide ((w.extractLsb' 0 3).toNat < 6)

/-- `m` is set only on the opcodes that give it a meaning: 0 (mode), 2 (half) and 4 (policy) (R72, R76). -/
def Request.modifierAllowed (w : Request) : Bool :=
  !w.getLsbD 3 || (w.extractLsb' 0 3 == 0#3 || w.extractLsb' 0 3 == 2#3 || w.extractLsb' 0 3 == 4#3)

/-- The word passes the three checks of R73. -/
def Request.wellFormed (w : Request) : Bool :=
  Request.reservedBitsClear w && Request.opcodeAssigned w && Request.modifierAllowed w

/-- A channel list of the textual syntax: sixteen raw values (R80), each in the 11-bit domain (R60). -/
def Source.chansFit (chans : List Nat) : Bool :=
  chans.length == Config.nAnalog && chans.all (· ≤ Config.rawMax)

/-- A `READ` operand the 8-bit index field can carry (R69). -/
def Source.indexFits (idx : Nat) : Bool := decide (idx ≤ 255)

/-- A codec operand: one unsigned value up to 65535 (R80). -/
def Source.valueFits (v : Nat) : Bool := decide (v ≤ 65535)

/-- Every operand of the source request fits its field. -/
def Source.wellFormed : Source → Bool
  | .initStd => true
  | .initExt => true
  | .decStd chans _ => Source.chansFit chans
  | .decExtLo chans _ => Source.chansFit chans
  | .decExtHi chans _ => Source.chansFit chans
  | .read idx => Source.indexFits idx
  | .cdecFull v => Source.valueFits v
  | .cdecSafe v => Source.valueFits v
  | .cenc v => Source.valueFits v

end Sys2Proof
end

