-- ==== Sys2Proof/Decode.lean ====
section
/-! DEFINITION. Request words to operations and back: fields, decoder, encoder, and the byte carriage of 20_memory.md R42. -/

namespace Sys2Proof

/-! Fields of a request word. -/

/-- `REQ[lo + len - 1 : lo]` (00_scope.md R11). -/
def bitField (w : Request) (lo len : Nat) : BitVec len := w.extractLsb' lo len

/-- `op = REQ[2:0]` (30_encoding.md R69). -/
def opField (w : Request) : BitVec 3 := bitField w 0 3

/-- `m = REQ[3]` (R69). -/
def modifierBit (w : Request) : Bool := w.getLsbD 3

/-- `REQ[7:4]`, reserved (R69, R75). -/
def reservedField (w : Request) : BitVec 4 := bitField w 4 4

/-- `chan<i> = REQ[11i + 18 : 11i + 8]` (R69). -/
def chanField (w : Request) (i : Fin 16) : Raw := bitField w (11 * i.val + 8) 11

/-- `F[k] = REQ[184 + k]` (R69). -/
def flagField (w : Request) (k : Nat) : Bool := w.getLsbD (184 + k)

/-- `idx = REQ[15:8]` (R69, format X). -/
def indexField (w : Request) : IndexOperand := bitField w 8 8

/-- `val = REQ[23:8]` (R69, format V). -/
def valueField (w : Request) : ValueOperand := bitField w 8 16

/-- The record of a format R request: the fields of R69 and the predicates of R67; `F[7:4]` are ignored (R77). -/
def recordField (w : Request) : Record where
  chans := Vector.ofFn (chanField w)
  digitalChannel1 := flagField w 0
  digitalChannel2 := flagField w 1
  signalLoss := flagField w 2
  failsafeActive := flagField w 3

/-! The decoder. -/

/-- The decode procedure R73 over the opcode map R72. `op` has three bits, so the last arm is `op` 6 and 7 (R74). -/
def decode (w : Request) : Decoded :=
  if reservedField w ≠ 0#4 then .rejected .reservedBits
  else
    match (opField w).toNat, modifierBit w with
    | 0, false => .instr .initStd
    | 0, true => .instr .initExt
    | 1, false => .instr (.decStd (recordField w))
    | 1, true => .rejected .reservedModifier
    | 2, false => .instr (.decExtLo (recordField w))
    | 2, true => .instr (.decExtHi (recordField w))
    | 3, false => .instr (.read (indexField w))
    | 3, true => .rejected .reservedModifier
    | 4, false => .instr (.cdecFull (valueField w))
    | 4, true => .instr (.cdecSafe (valueField w))
    | 5, false => .instr (.cenc (valueField w))
    | 5, true => .rejected .reservedModifier
    | _, _ => .rejected .reservedOpcode

/-- The request word whose bits are `w`, numbered as the opcode table numbers them, every bit from `nbits` up being 0. -/
def tableWord (nbits w : Nat) : Request := BitVec.ofNat 192 (w % 2 ^ nbits)

/-- The operation the decoder reads from that word, none where it refuses. -/
def decodeTableWord (nbits w : Nat) : Option Instr :=
  match decode (tableWord nbits w) with
  | .instr i => some i
  | .rejected _ => none

/-! The encoder. -/

/-- Mode bit (R25, R65): 0 standard, 1 extended. -/
def modeBit : Mode → Bool
  | .std => false
  | .ext => true

/-- Half bit (R65): 0 low, 1 high. -/
def halfBit : Half → Bool
  | .low => false
  | .high => true

/-- Policy bit (R65): 0 full, 1 safe. -/
def policyBit : Policy → Bool
  | .full => false
  | .safe => true

/-- The low byte `REQ[7:0]` of each operation: the first column of R72. -/
def opcodeByte : Instr → BitVec 8
  | .initStd => 0x00#8
  | .initExt => 0x08#8
  | .decStd _ => 0x01#8
  | .decExtLo _ => 0x02#8
  | .decExtHi _ => 0x0A#8
  | .read _ => 0x03#8
  | .cdecFull _ => 0x04#8
  | .cdecSafe _ => 0x0C#8
  | .cenc _ => 0x05#8

/-- The word that is `v` from bit `lo` up and zero elsewhere. -/
def placeField {n : Nat} (v : BitVec n) (lo : Nat) : Request := v.setWidth 192 <<< lo

/-- The sixteen analog fields at the bits R69 gives them. -/
def chansPayload (r : Record) : Request :=
  (List.finRange 16).foldr (fun i acc => placeField r.chans[i] (11 * i.val + 8) ||| acc) 0#192

/-- The four predicates at the bits R69 gives them, `F[7:4]` zero (R80: the assembler clears ignored bits). -/
def flagsPayload (r : Record) : Request :=
  placeField (BitVec.ofBool r.digitalChannel1) 184 ||| placeField (BitVec.ofBool r.digitalChannel2) 185
    ||| placeField (BitVec.ofBool r.signalLoss) 186 ||| placeField (BitVec.ofBool r.failsafeActive) 187

/-- The payload of a format R request. -/
def recordPayload (r : Record) : Request := chansPayload r ||| flagsPayload r

/-- The payload of each operation by its format (R69), every ignored bit zero (R80). -/
def payload : Instr → Request
  | .initStd => 0#192
  | .initExt => 0#192
  | .decStd r => recordPayload r
  | .decExtLo r => recordPayload r
  | .decExtHi r => recordPayload r
  | .read idx => placeField idx 8
  | .cdecFull val => placeField val 8
  | .cdecSafe val => placeField val 8
  | .cenc val => placeField val 8

/-- The request word of an operation (R69, R72). -/
def encode (i : Instr) : Request := placeField (opcodeByte i) 0 ||| payload i

/-- How many low bits of the word the operation's format names (R69): every bit from there up is ignored (R77). -/
def namedBits : Instr → Nat
  | .initStd => 8
  | .initExt => 8
  | .decStd _ => 188
  | .decExtLo _ => 188
  | .decExtHi _ => 188
  | .read _ => 16
  | .cdecFull _ => 24
  | .cdecSafe _ => 24
  | .cenc _ => 24

/-! Words carried as bytes (20_memory.md R42): byte `k` carries bits `8k + 7 : 8k`. -/

/-- The 24 bytes of a request word, least significant first. -/
def bytesOfRequest (w : Request) : List Byte := (List.range 24).map fun k => w.extractLsb' (8 * k) 8

/-- The request word whose byte `k` is the `k`-th of the list; bytes past the 24th do not count. -/
def requestOfBytes (bs : List Byte) : Request :=
  bs.foldr (fun b acc => (acc <<< 8) ||| b.setWidth 192) 0#192

/-- The two bytes of a response word, least significant first. -/
def bytesOfResponse (v : Response) : List Byte := [v.extractLsb' 0 8, v.extractLsb' 8 8]

/-- One request taken from the front of a byte stream, with the rest of the stream; none while fewer than 24 bytes are
there, since every request is one word of 192 bits (R68; log entry 11). -/
def decodeBytes (bs : List Byte) : Option (Decoded × List Byte) :=
  if 24 ≤ bs.length then some (decode (requestOfBytes (bs.take 24)), bs.drop 24) else none

end Sys2Proof
end

