-- ==== Sys2Proof/Machine/State.lean ====
section
/-! DEFINITION. The state of the block, the host's side of its port, and the reasons a step can stop. -/

namespace Sys2Proof.Machine

/-- The channel slot array `CH[0..31]` (10_state.md R20, R21; log entry 9). -/
abbrev Slots := Vector Raw 32

/-- What the host can do to the block (70_reset_and_hazards.md R175): present a request word, or reset it between two
requests (R170). -/
inductive HostEvent where
  | request (w : Request)
  | reset
  deriving DecidableEq, Repr

/-- The whole state. `ch`, `mode` and `bound` are the block's own (00_scope.md R17 point 2); the other three are the
model's (INVENTORY.md, State). -/
structure State where
  /-- `CH[0..31]`, raw-domain values (R20, R21). -/
  ch : Slots
  /-- `MODE` (R25). -/
  mode : Mode
  /-- `BOUND` (R26). -/
  bound : Bool
  /-- What the host presents, in the block's order of acceptance (20_memory.md R50; log entries 1 and 2). -/
  host : List HostEvent
  /-- The responses returned so far, oldest first (R70, R183; log entry 3). -/
  responses : List Response
  /-- How many times the free slot contents have been drawn (log entry 5). -/
  draws : Nat
  deriving DecidableEq, Repr

/-- No fault exists: "decode never fails and never returns an error value" (60_exceptions.md R150; log entry 7). -/
inductive Fault where
  deriving DecidableEq, Repr

/-- Why a request is refused (00_scope.md R14): the spec gives it no step. Safe, all of them: the model takes no step
where the hardware does something the spec does not say. -/
inductive Refusal where
  /-- An operation whose meaning has not been written. No arm of `exec` raises it. Safe. -/
  | notModelled (mnemonic : String)
  /-- `BOUND = 0`: raised by `DECSTD`, `DECEXT.LO`, `DECEXT.HI`, `READ` (41_decoder.md R92, 43_array.md R135). Safe. -/
  | notBound
  /-- The decode operation is not the session's: raised by `DECSTD`, `DECEXT.LO`, `DECEXT.HI` (R92). Safe. -/
  | modeMismatch
  /-- `idx >= N(MODE)`: raised by `READ` (R135). Safe. -/
  | indexOutOfRange
  /-- `op` 6 or 7: raised by the step when decoding (30_encoding.md R74). Safe. -/
  | reservedOpcode
  /-- `REQ[7:4]` not zero: raised by the step when decoding (R75). Safe. -/
  | reservedBits
  /-- `m` set on `DECSTD`, `READ` or `CENC`: raised by the step when decoding (R76). Safe. -/
  | reservedModifier
  deriving DecidableEq, Repr

/-- The outcome of one step of this machine. -/
abbrev Result := Host.Outcome State Fault Refusal

/-- The slot array after the `draw`-th reset: 32 free values (R32; log entry 4). Irreducible, since nothing can be learnt by
unfolding it. -/
@[irreducible] def freeSlots (draw : Nat) : Slots := Vector.ofFn (Config.resetSlot draw)

/-- The machine right after reset (R32, R170): no session, standard mode, slots free, nothing presented and nothing
answered yet (log entries 1, 3, 4, 5). -/
def State.reset : State where
  ch := freeSlots 0
  mode := .std
  bound := false
  host := []
  responses := []
  draws := 1

end Sys2Proof.Machine
end

