-- ==== Sys2Proof/Machine/Flags.lean ====
section
/-! DEFINITION. FrameStatus: the block's only flags, returned and never stored (10_state.md R28). -/

namespace Sys2Proof.Machine

/-- FrameStatus, a 3-bit flag set (30_encoding.md R64). -/
abbrev FrameStatus := BitVec 3

/-- COMPLETE, bit 0 (R28, R64). -/
def statusComplete : FrameStatus := 0b001#3

/-- FAILSAFE, bit 1. -/
def statusFailsafe : FrameStatus := 0b010#3

/-- DROPPED, bit 2. -/
def statusDropped : FrameStatus := 0b100#3

/-- `status(F)` (41_decoder.md R91, R93): FAILSAFE wins over DROPPED, COMPLETE is always set. -/
def frameStatus (r : Record) : FrameStatus :=
  if r.failsafeActive then statusComplete ||| statusFailsafe
  else if r.signalLoss then statusComplete ||| statusDropped
  else statusComplete

/-- The response word that carries a status in `RSP[2:0]`, the other bits zero (R70). -/
def statusResponse (r : Record) : Response := (frameStatus r).setWidth 16

end Sys2Proof.Machine
end

