-- ==== Sys2Proof/Machine/Operands.lean ====
section
/-! DEFINITION. The operand forms (30_encoding.md R71): digital predicates, slot indices, codec values, policy
ranges and half offsets. -/

namespace Sys2Proof.Machine

/-- `dig(b)` (41_decoder.md R91): the sentinel of a digital channel, 1812 when set and 173 when clear (R62). -/
def dig (b : Bool) : Raw :=
  if b then BitVec.ofNat 11 Config.digMax else BitVec.ofNat 11 Config.digMin

/-- `N(mode)` (10_state.md R22): the visible indices are those below it. -/
def visibleSlots : Mode → Nat
  | .std => Config.nStd
  | .ext => Config.nExt

theorem visibleSlots_le (m : Mode) : visibleSlots m ≤ 32 := by cases m <;> decide

/-- The slot a `READ` index names, none when it is not below `N(mode)` (20_memory.md R43, R45: used as it is given). -/
def resolveIndex (m : Mode) (idx : IndexOperand) : Option (Fin 32) :=
  if h : idx.toNat < visibleSlots m then some ⟨idx.toNat, Nat.lt_of_lt_of_le h (visibleSlots_le m)⟩ else none

/-- A value operand as the unsigned integer it is (R71). -/
def valueOperand (v : ValueOperand) : Int := v.toNat

/-- A slot's raw value as the unsigned integer it is (R60). -/
def rawOperand (v : Raw) : Int := v.toNat

/-- The range a policy clamps to: full [0, 2047], safe [173, 1812] (R65). -/
def policyLow : Policy → Int
  | .full => Config.rawMin
  | .safe => Config.digMin

/-- The upper end of that range. -/
def policyHigh : Policy → Int
  | .full => Config.rawMax
  | .safe => Config.digMax

/-- The slot offset of a half's analog fields: 0, or `HIGH_BASE` (41_decoder.md R95, R96). -/
def halfBase : Half → Nat
  | .low => 0
  | .high => Config.highBase

end Sys2Proof.Machine
end

