-- ==== Sys2Proof/Machine/Ops.lean ====
section
/-! DEFINITION. The shared operations: slot writes, the response, sessions and their preconditions, a platform reset, and taking
the next event from the host. The block has no exception to take and none to return from (60_exceptions.md R150, R154, R155), so
there is no operation for either. -/

namespace Sys2Proof.Machine

/-! Slots. -/

/-- `CH[i]` (00_scope.md R13). -/
def State.slot (s : State) (i : Fin 32) : Raw := s.ch[i]

/-- Consecutive slot writes from `base` up, in order: `CH[base + k] <- vs[k]` (20_memory.md R41: separate slots, one
atomic step). -/
def writeRun (ch : Slots) (base : Nat) : List Raw → Slots
  | [] => ch
  | v :: vs => writeRun (ch.setIfInBounds base v) (base + 1) vs

/-- The state with another slot array. -/
def State.withSlots (s : State) (ch : Slots) : State := { s with ch := ch }

/-! Responses. -/

/-- The state after `RSP = v` has been returned. -/
def State.answered (s : State) (v : Response) : State := { s with responses := s.responses ++ [v] }

/-- `respond v` (00_scope.md R13): return the response word and finish the request. -/
def respond (v : Response) (s : State) : Result := .next (s.answered v)

/-- `zext_16(v)` (R12, R13) of an exact integer; every use lies in 0 to 65535 (42_codec.md R115). -/
def zext16 (v : Int) : Response := BitVec.ofInt 16 v

/-! Sessions. -/

/-- Begin a session in mode `m` (43_array.md R130, R131, R133): every slot to `RAW_CENTER`, `MODE`, `BOUND`. -/
def startSession (m : Mode) (s : State) : State :=
  { s with ch := Vector.replicate 32 (BitVec.ofNat 11 Config.rawCenter), mode := m, bound := true }

/-- Go on only in a session: while `BOUND = 0` the request is refused (41_decoder.md R92 (1), 43_array.md R135 (1)). -/
def requireBound (s : State) (body : State → Result) : Result :=
  if s.bound then body s else .refused .notBound

/-- Go on only in a session of mode `m` (R92: `BOUND` first, then `MODE`). -/
def requireMode (m : Mode) (s : State) (body : State → Result) : Result :=
  requireBound s fun s => if s.mode = m then body s else .refused .modeMismatch

/-! The host's side. -/

/-- A platform reset (70_reset_and_hazards.md R170, 10_state.md R32): `BOUND` and `MODE` to 0, the slots to a fresh
free value, no response (log entries 4, 5, 6). -/
def platformReset (s : State) : State :=
  { s with ch := freeSlots s.draws, mode := .std, bound := false, draws := s.draws + 1 }

/-- Take the next event the host presents, in order of acceptance (20_memory.md R50); none when it presents nothing. -/
def takeEvent (s : State) : Option (HostEvent × State) :=
  match s.host with
  | [] => none
  | e :: rest => some (e, { s with host := rest })

/-- Nothing is presented: the block is idle and all of its state survives (60_exceptions.md R159; log entry 2). -/
def idle (s : State) : Result := .next s

/-- The refusal of a word the decoder turns away (30_encoding.md R73). -/
def decodeRefusal : DecodeRefusal → Refusal
  | .reservedBits => .reservedBits
  | .reservedOpcode => .reservedOpcode
  | .reservedModifier => .reservedModifier

/-- Put an event in front of what the host presents. -/
def State.present (s : State) (e : HostEvent) : State := { s with host := e :: s.host }

end Sys2Proof.Machine
end

