-- ==== Sys2Proof/Machine/ValueCodec.lean ====
section
/-! DEFINITION. The ValueCodec (42_codec.md): exact integer arithmetic, then the three stateless operations. -/

namespace Sys2Proof.Machine

/-- `clamp(v, lo, hi)` (00_scope.md R12). -/
def clamp (v lo hi : Int) : Int := if v < lo then lo else if hi < v then hi else v

/-- `dec(raw, lo, hi) = floor(clamp(raw, lo, hi) * 5 / 8) + 880` (R111). Integer division by a positive divisor rounds
down, so it is the `floor` of R12. -/
def dec (raw lo hi : Int) : Int :=
  clamp raw lo hi * Config.scaleNum / Config.scaleDen + Config.normOffset

/-- `enc(norm) = clamp(floor(((norm - 880) * 8 + 4) / 5), 173, 1812)` (R111), the numerator signed and exact (R115). -/
def enc (norm : Int) : Int :=
  clamp (((norm - Config.normOffset) * Config.scaleDen + Config.encRound) / Config.scaleNum) Config.digMin Config.digMax

/-- `dec` under a policy (30_encoding.md R65). -/
def decPolicy (p : Policy) (raw : Int) : Int := dec raw (policyLow p) (policyHigh p)

/-- `CDEC.FULL` (R112). -/
def execCdecFull (val : ValueOperand) (s : State) : Result :=
  respond (zext16 (decPolicy .full (valueOperand val))) s

/-- `CDEC.SAFE` (R113). -/
def execCdecSafe (val : ValueOperand) (s : State) : Result :=
  respond (zext16 (decPolicy .safe (valueOperand val))) s

/-- `CENC` (R114). -/
def execCenc (val : ValueOperand) (s : State) : Result :=
  respond (zext16 (enc (valueOperand val))) s

end Sys2Proof.Machine
end

