-- ==== Sys2Proof/Machine/ChannelArray.lean ====
section
/-! DEFINITION. The ChannelArray lifecycle (43_array.md): initialisation and the read accessor. -/

namespace Sys2Proof.Machine

/-- `INIT.STD` (R130): legal in any state. -/
def execInitStd (s : State) : Result := respond 0#16 (startSession .std s)

/-- `INIT.EXT` (R131): legal in any state. -/
def execInitExt (s : State) : Result := respond 0#16 (startSession .ext s)

/-- `READ` (R134, R135): the full-policy decode of one visible slot, and no side effect (20_memory.md R48). -/
def execRead (idx : IndexOperand) (s : State) : Result :=
  requireBound s fun s =>
    match resolveIndex s.mode idx with
    | some i => respond (zext16 (decPolicy .full (rawOperand (s.slot i)))) s
    | none => .refused .indexOutOfRange

end Sys2Proof.Machine
end

