-- ==== Sys2Proof/Machine/FrameDecode.lean ====
section
/-! DEFINITION. The ChannelFrameDecoder (41_decoder.md): the three frame decode operations. -/

namespace Sys2Proof.Machine

/-- The sixteen analog writes, verbatim, at slot offset `base` (R91). -/
def writeAnalog (r : Record) (base : Nat) (ch : Slots) : Slots := writeRun ch base r.chans.toList

/-- The two digital writes, from slot `base` (R91). -/
def writeDigital (r : Record) (base : Nat) (ch : Slots) : Slots :=
  writeRun ch base [dig r.digitalChannel1, dig r.digitalChannel2]

/-- `DECSTD` (R94). -/
def execDecStd (r : Record) (s : State) : Result :=
  requireMode .std s fun s =>
    respond (statusResponse r) (s.withSlots (writeDigital r Config.stdDigBase (writeAnalog r 0 s.ch)))

/-- `DECEXT.LO` (R95): the low half owns the digital slots at `EXT_DIG_BASE` (R97). -/
def execDecExtLo (r : Record) (s : State) : Result :=
  requireMode .ext s fun s =>
    respond (statusResponse r)
      (s.withSlots (writeDigital r Config.extDigBase (writeAnalog r (halfBase .low) s.ch)))

/-- `DECEXT.HI` (R96): no flag-derived write (R97). -/
def execDecExtHi (r : Record) (s : State) : Result :=
  requireMode .ext s fun s =>
    respond (statusResponse r) (s.withSlots (writeAnalog r (halfBase .high) s.ch))

end Sys2Proof.Machine
end

