-- ==== Sys2Proof/Machine/Dispatch.lean ====
section
/-! DEFINITION. One arm per operation (30_encoding.md R72). -/

namespace Sys2Proof.Machine

def exec (i : Instr) (s : State) : Host.Outcome State Fault Refusal :=
  match i with
  | .initStd => Sys2Proof.Machine.execInitStd s
  | .initExt => Sys2Proof.Machine.execInitExt s
  | .decStd r => Sys2Proof.Machine.execDecStd r s
  | .decExtLo r => Sys2Proof.Machine.execDecExtLo r s
  | .decExtHi r => Sys2Proof.Machine.execDecExtHi r s
  | .read idx => Sys2Proof.Machine.execRead idx s
  | .cdecFull val => Sys2Proof.Machine.execCdecFull val s
  | .cdecSafe val => Sys2Proof.Machine.execCdecSafe val s
  | .cenc val => Sys2Proof.Machine.execCenc val s

end Sys2Proof.Machine
end

