-- ==== Sys2Proof/Machine/Step.lean ====
section
/-! DEFINITION. One step: the next event the host presents, performed whole (20_memory.md R46, R50). -/

namespace Sys2Proof.Machine

/-- One step. A request is decoded and performed, response included (R50); a platform reset happens between two requests
(70_reset_and_hazards.md R170); with nothing presented the block waits (R171). -/
def step (s : State) : Host.Outcome State Fault Refusal :=
  match takeEvent s with
  | none => idle s
  | some (.reset, s') => .next (platformReset s')
  | some (.request w, s') =>
    match decode w with
    | .instr i => exec i s'
    | .rejected r => .refused (decodeRefusal r)

/-- The state in which the host presents the request word of `tableWord nbits w` next, before anything else it presents
(log entry 1). -/
def State.withFetchWord (s : State) (nbits w : Nat) : State := s.present (.request (tableWord nbits w))

end Sys2Proof.Machine
end

