-- ==== Sys2Proof/Machine/Assembler.lean ====
section
/-! DEFINITION. The textual syntax (30_encoding.md R80, R81; 10_state.md R23): one request per line, to a source request, to
an operation, to a request word (log entry 10). -/

namespace Sys2Proof.Machine

/-! Tokens of a line. -/

/-- A token: a name, a number, or one of the five punctuation marks R80 uses. -/
inductive Token where
  | name (cs : List Char)
  | num (n : Nat)
  | comma
  | star
  | bar
  | lbrack
  | rbrack
  deriving DecidableEq, Repr

/-- The value of a decimal or hexadecimal digit. -/
def digitValue (c : Char) : Option Nat :=
  if '0' ≤ c ∧ c ≤ '9' then some (c.toNat - '0'.toNat)
  else if 'a' ≤ c ∧ c ≤ 'f' then some (c.toNat - 'a'.toNat + 10)
  else if 'A' ≤ c ∧ c ≤ 'F' then some (c.toNat - 'A'.toNat + 10)
  else none

/-- The number whose digits in `base` follow those of `acc`. -/
def digitsFrom (base acc : Nat) : List Char → Option Nat
  | [] => some acc
  | c :: cs =>
    match digitValue c with
    | some d => if d < base then digitsFrom base (acc * base + d) cs else none
    | none => none

/-- A number: decimal, or hexadecimal with `0x` (R80). -/
def numberOf : List Char → Option Nat
  | [] => none
  | '0' :: 'x' :: c :: cs => digitsFrom 16 0 (c :: cs)
  | cs => digitsFrom 10 0 cs

/-- The token of a run of name characters: a number if it starts with a decimal digit. -/
def runToken : List Char → Option (List Token)
  | [] => some []
  | c :: cs =>
    if '0' ≤ c ∧ c ≤ '9' then (numberOf (c :: cs)).map fun n => [.num n] else some [.name (c :: cs)]

/-- The punctuation marks of R80. -/
def markToken (c : Char) : Option Token :=
  if c = ',' then some .comma
  else if c = '*' then some .star
  else if c = '|' then some .bar
  else if c = '[' then some .lbrack
  else if c = ']' then some .rbrack
  else none

/-- The tokens of a line, `run` being the name characters just read; `;` starts a comment (R80). -/
def lexLine (run : List Char) : List Char → Option (List Token)
  | [] => runToken run
  | c :: cs =>
    if c = ';' then runToken run
    else if c = ' ' ∨ c = '\t' then
      match runToken run, lexLine [] cs with
      | some a, some b => some (a ++ b)
      | _, _ => none
    else
      match markToken c with
      | some t =>
        match runToken run, lexLine [] cs with
        | some a, some b => some (a ++ t :: b)
        | _, _ => none
      | none => if c.isAlphanum ∨ c = '.' then lexLine (run ++ [c]) cs else none

/-! Operands. -/

/-- The flag names of R80. -/
def flagNamed (cs : List Char) : Option FlagName :=
  if cs = "DG1".toList then some .dg1
  else if cs = "DG2".toList then some .dg2
  else if cs = "LOSS".toList then some .loss
  else if cs = "FS".toList then some .fs
  else none

/-- One or more flag names separated by `|`, up to the closing bracket. -/
def parseFlagNames : List Token → Option (List FlagName)
  | [.name cs, .rbrack] => (flagNamed cs).map fun f => [f]
  | .name cs :: .bar :: rest =>
    match flagNamed cs, parseFlagNames rest with
    | some f, some fs => some (f :: fs)
    | _, _ => none
  | _ => none

/-- What follows the opening bracket of a flag list; `[]` is no flag (R80). -/
def parseFlags : List Token → Option (List FlagName)
  | [.rbrack] => some []
  | ts => parseFlagNames ts

/-- A channel list and a flag list; `v*k` stands for `k` copies of `v` (R80). -/
def parseFrame : List Token → Option (List Nat × List FlagName)
  | .lbrack :: rest => (parseFlags rest).map fun fs => ([], fs)
  | .num v :: .comma :: rest => (parseFrame rest).map fun p => (v :: p.1, p.2)
  | .num v :: .star :: .num k :: .comma :: rest => (parseFrame rest).map fun p => (List.replicate k v ++ p.1, p.2)
  | _ => none

/-- The number 0 to 15 at the end of an alias (10_state.md R23). -/
def aliasNumber : List Char → Option Nat
  | [d] => digitsFrom 10 0 [d]
  | ['1', d] => (digitsFrom 6 0 [d]).map (10 + ·)
  | _ => none

/-- The slot an alias names (R23); `H0` is `CH16` (`HIGH_BASE`), `DG1` is `CH16`. -/
def aliasSlot (cs : List Char) : Option Nat :=
  if cs = "DG1".toList then some Config.stdDigBase
  else if cs = "DG2".toList then some (Config.stdDigBase + 1)
  else
    match cs with
    | 'A' :: ds => aliasNumber ds
    | 'L' :: ds => aliasNumber ds
    | 'H' :: ds => (aliasNumber ds).map (Config.highBase + ·)
    | _ => none

/-- A `READ` operand: a slot index or an alias (R80). -/
def parseIndex : List Token → Option Nat
  | [.num n] => some n
  | [.name cs] => aliasSlot cs
  | _ => none

/-- A codec operand: one unsigned value (R80). -/
def parseValue : List Token → Option Nat
  | [.num n] => some n
  | _ => none

/-- No operand. -/
def parseNone (src : Source) : List Token → Option Source
  | [] => some src
  | _ => none

/-! Lines. -/

/-- A mnemonic and its operands (R80: mnemonics in upper case, the suffix part of the mnemonic). -/
def parseRequest (m : List Char) (ops : List Token) : Option Source :=
  if m = "INIT.STD".toList then parseNone .initStd ops
  else if m = "INIT.EXT".toList then parseNone .initExt ops
  else if m = "DECSTD".toList then (parseFrame ops).map fun p => .decStd p.1 p.2
  else if m = "DECEXT.LO".toList then (parseFrame ops).map fun p => .decExtLo p.1 p.2
  else if m = "DECEXT.HI".toList then (parseFrame ops).map fun p => .decExtHi p.1 p.2
  else if m = "READ".toList then (parseIndex ops).map .read
  else if m = "CDEC.FULL".toList then (parseValue ops).map .cdecFull
  else if m = "CDEC.SAFE".toList then (parseValue ops).map .cdecSafe
  else if m = "CENC".toList then (parseValue ops).map .cenc
  else none

/-- One line: no request when it is blank or only a comment, else one request. The outer `none` is a syntax error. -/
def parseLine (line : List Char) : Option (Option Source) :=
  match lexLine [] line with
  | some [] => some none
  | some (.name m :: ops) => (parseRequest m ops).map some
  | _ => none

/-! Source requests to operations. -/

/-- The record of a channel list and a flag list (R80, R66, R67). -/
def recordOfSource (chans : List Nat) (flags : List FlagName) : Record where
  chans := Vector.ofFn fun i : Fin 16 => BitVec.ofNat 11 (chans.getD i.val 0)
  digitalChannel1 := flags.contains .dg1
  digitalChannel2 := flags.contains .dg2
  signalLoss := flags.contains .loss
  failsafeActive := flags.contains .fs

/-- The operation a source request with operands that fit stands for (R81: one to one with the mnemonics). -/
def instrOfSource : Source → Instr
  | .initStd => .initStd
  | .initExt => .initExt
  | .decStd chans flags => .decStd (recordOfSource chans flags)
  | .decExtLo chans flags => .decExtLo (recordOfSource chans flags)
  | .decExtHi chans flags => .decExtHi (recordOfSource chans flags)
  | .read idx => .read (BitVec.ofNat 8 idx)
  | .cdecFull v => .cdecFull (BitVec.ofNat 16 v)
  | .cdecSafe v => .cdecSafe (BitVec.ofNat 16 v)
  | .cenc v => .cenc (BitVec.ofNat 16 v)

/-- The operation of a source request, none when an operand does not fit its field. -/
def assemble (src : Source) : Option Instr :=
  if src.wellFormed then some (instrOfSource src) else none

/-- The flag list of a record, in the order of R80. -/
def sourceFlags (r : Record) : List FlagName :=
  (if r.digitalChannel1 then [.dg1] else []) ++ (if r.digitalChannel2 then [.dg2] else [])
    ++ (if r.signalLoss then [.loss] else []) ++ (if r.failsafeActive then [.fs] else [])

/-- The channel list of a record. -/
def sourceChans (r : Record) : List Nat := r.chans.toList.map BitVec.toNat

/-- The source request of an operation. -/
def sourceOfInstr : Instr → Source
  | .initStd => .initStd
  | .initExt => .initExt
  | .decStd r => .decStd (sourceChans r) (sourceFlags r)
  | .decExtLo r => .decExtLo (sourceChans r) (sourceFlags r)
  | .decExtHi r => .decExtHi (sourceChans r) (sourceFlags r)
  | .read idx => .read idx.toNat
  | .cdecFull val => .cdecFull val.toNat
  | .cdecSafe val => .cdecSafe val.toNat
  | .cenc val => .cenc val.toNat

/-- The request word of one line, none inside when the line holds no request. -/
def assembleLine (line : List Char) : Option (Option Request) :=
  match parseLine line with
  | some (some src) => (assemble src).map fun i => some (encode i)
  | some none => some none
  | none => none

/-- The request words of a program, one request per line (R80). -/
def assembleProgram : List (List Char) → Option (List Request)
  | [] => some []
  | line :: lines =>
    match assembleLine line, assembleProgram lines with
    | some (some w), some ws => some (w :: ws)
    | some none, some ws => some ws
    | _, _ => none

end Sys2Proof.Machine
end

