-- ==== Sys2Proof/Safety.lean ====
section
/-! DEFINITION. What claims about runs are stated in: runs, requests in contract, roles, write sets, interleavings, and the
invariants of a session. -/

namespace Sys2Proof.Machine

/-! Runs. -/

/-- `n` steps, ending at the first refusal (70_reset_and_hazards.md R183). -/
def runSteps : Nat → State → Result
  | 0, s => .next s
  | n + 1, s =>
    match step s with
    | .next s' => runSteps n s'
    | .fault r => .fault r
    | .refused r => .refused r

/-- The block's own state, without the host's side of the port (00_scope.md R17 point 2). -/
def State.block (s : State) : Slots × Mode × Bool := (s.ch, s.mode, s.bound)

/-! Requests in contract (R175, lines 1 to 4). -/

/-- An operation the host may issue in state `s`: a session for the decodes and `READ` (line 1), the session's mode for the
decodes (line 2), a visible index for `READ` (line 3). -/
def operationInContract (s : State) : Instr → Bool
  | .initStd => true
  | .initExt => true
  | .decStd _ => s.bound && s.mode == .std
  | .decExtLo _ => s.bound && s.mode == .ext
  | .decExtHi _ => s.bound && s.mode == .ext
  | .read idx => s.bound && decide (idx.toNat < visibleSlots s.mode)
  | .cdecFull _ => true
  | .cdecSafe _ => true
  | .cenc _ => true

/-- An event the host may present in state `s`; a word must carry an operation (line 4), a reset may come at any time (line
11). -/
def eventInContract (s : State) : HostEvent → Bool
  | .reset => true
  | .request w =>
    match decode w with
    | .instr i => operationInContract s i
    | .rejected _ => false

/-- What the host presents next, if anything, is in contract. -/
def inContract (s : State) : Bool :=
  match s.host with
  | [] => true
  | e :: _ => eventInContract s e

/-! Roles (60_exceptions.md R156). -/

/-- Who issues an operation: the receiver-core, the flight stack, or either. -/
inductive Role where
  | writer
  | reader
  | either
  deriving DecidableEq, Repr

/-- The role of each operation (R156). -/
def instrRole : Instr → Role
  | .initStd => .writer
  | .initExt => .writer
  | .decStd _ => .writer
  | .decExtLo _ => .writer
  | .decExtHi _ => .writer
  | .read _ => .reader
  | .cdecFull _ => .either
  | .cdecSafe _ => .either
  | .cenc _ => .either

/-- The word carries an operation that a reader may issue: `READ` or a codec operation. -/
def readerRequest (w : Request) : Bool :=
  match decode w with
  | .instr i => instrRole i != .writer
  | .rejected _ => false

/-! Operands in the request word. -/

/-- `w` carries `r` at the bits that 30_encoding.md R69 gives the fields of format R: `chan<i>` at 11i + 18 : 11i + 8, the
predicates at 184 to 187 (R66, R67). -/
def CarriesRecord (w : Request) (r : Record) : Prop :=
  (∀ i : Fin 16, r.chans[i] = w.extractLsb' (11 * i.val + 8) 11) ∧
  r.digitalChannel1 = w.getLsbD 184 ∧ r.digitalChannel2 = w.getLsbD 185 ∧
  r.signalLoss = w.getLsbD 186 ∧ r.failsafeActive = w.getLsbD 187

/-- `w` carries the operands of `i` at the bits R69 gives its format: none in format N, the record in R, `idx` in X,
`val` in V. -/
def CarriesOperands (w : Request) : Instr → Prop
  | .initStd => True
  | .initExt => True
  | .decStd r => CarriesRecord w r
  | .decExtLo r => CarriesRecord w r
  | .decExtHi r => CarriesRecord w r
  | .read idx => idx = w.extractLsb' 8 8
  | .cdecFull val => val = w.extractLsb' 8 16
  | .cdecSafe val => val = w.extractLsb' 8 16
  | .cenc val => val = w.extractLsb' 8 16

/-! Write sets (10_state.md R24). -/

/-- The value an operation leaves in slot `j`, none where it does not write it: the tables of R22 and R24, slots 16 and
17 of the extended mode to the last of the two halves (R97). -/
def slotWrite (i : Instr) (j : Fin 32) : Option Raw :=
  match i with
  | .initStd => some 992#11
  | .initExt => some 992#11
  | .decStd r => frameWrite r j
  | .decExtLo r => frameWrite r j
  | .decExtHi r => if h : 16 ≤ j.val then some (r.chans[j.val - 16]'(by omega)) else none
  | .read _ => none
  | .cdecFull _ => none
  | .cdecSafe _ => none
  | .cenc _ => none
where
  /-- Analog fields in slots 0 to 15, sentinels in slots 16 and 17. -/
  frameWrite (r : Record) (j : Fin 32) : Option Raw :=
    if h : j.val < 16 then some (r.chans[j.val]'h)
    else if j.val = 16 then some (if r.digitalChannel1 then 1812#11 else 173#11)
    else if j.val = 17 then some (if r.digitalChannel2 then 1812#11 else 173#11)
    else none

/-- The decode operation of a half of the extended mode. -/
def halfOperation : Half × Record → Instr
  | (.low, r) => .decExtLo r
  | (.high, r) => .decExtHi r

/-- The value the last of some request words to write slot `j` left there, none where none of them writes it (20_memory.md
R51 (b)). -/
def lastWrite (j : Fin 32) : List Request → Option Raw
  | [] => none
  | w :: ws =>
    match lastWrite j ws, decode w with
    | some v, _ => some v
    | none, .instr i => slotWrite i j
    | none, .rejected _ => none

/-! Interleavings (R51 (c), (d)). -/

/-- `es` is a merge of the events of two requesters that keeps each requester's own order. -/
inductive Interleaving : List HostEvent → List HostEvent → List HostEvent → Prop where
  | nil : Interleaving [] [] []
  | left (e : HostEvent) (as bs es : List HostEvent) : Interleaving as bs es → Interleaving (e :: as) bs (e :: es)
  | right (e : HostEvent) (as bs es : List HostEvent) : Interleaving as bs es → Interleaving as (e :: bs) (e :: es)

/-! Invariants. -/

/-- `MODE` is 0 while there is no session: reset clears both and only `INIT` writes either (10_state.md R25, R26, R32). -/
def ModeClearWithoutSession (s : State) : Prop := s.bound = false → s.mode = .std

/-- In a standard session the invisible slots 18 to 31 hold 992 from `INIT.STD` (10_state.md R22). -/
def HiddenSlotsCentred (s : State) : Prop :=
  s.bound = true → s.mode = .std → ∀ j : Fin 32, 18 ≤ j.val → s.slot j = 992#11

/-- In a standard session a digital slot holds the centre value of `INIT.STD` or a sentinel (R94, R130). -/
def DigitalSlotsHoldSentinels (s : State) : Prop :=
  s.bound = true → s.mode = .std → ∀ j : Fin 32, j.val = 16 ∨ j.val = 17 →
    s.slot j = 992#11 ∨ s.slot j = 173#11 ∨ s.slot j = 1812#11

/-- The three together. -/
structure SessionInvariant (s : State) : Prop where
  modeClear : ModeClearWithoutSession s
  hiddenCentred : HiddenSlotsCentred s
  digitalSentinels : DigitalSlotsHoldSentinels s

end Sys2Proof.Machine
end

