-- ==== Sys2Proof/Certificates/Slice0/Obligations.lean ====
section
/-! DEFINITION. The statements for the provers. Each cites the rules of spec/ it formalises in OBLIGATIONS.json. -/

open Sys2Proof Sys2Proof.Machine

/-! ## Encoding -/

/-- R73 with R74, R75, R76, word for word in its order, as the outcome of the step that takes the request: the first
check that applies decides, and otherwise `REQ[7:0]` selects the one operation of its row, whose operands are the fields of
its format (R69), and which is performed. -/
def Obligations.RequestWordsDecodeInFixedOrder : Prop :=
  ∀ (w : Request) (s : State) (rest : List HostEvent), s.host = .request w :: rest →
    (w.extractLsb' 4 4 ≠ 0#4 → step s = .refused .reservedBits) ∧
    (w.extractLsb' 4 4 = 0#4 → w.extractLsb' 0 3 = 6#3 ∨ w.extractLsb' 0 3 = 7#3 →
      step s = .refused .reservedOpcode) ∧
    (w.extractLsb' 4 4 = 0#4 → w.getLsbD 3 = true →
      w.extractLsb' 0 3 = 1#3 ∨ w.extractLsb' 0 3 = 3#3 ∨ w.extractLsb' 0 3 = 5#3 →
      step s = .refused .reservedModifier) ∧
    (w.extractLsb' 4 4 = 0#4 → w.extractLsb' 0 3 ≠ 6#3 → w.extractLsb' 0 3 ≠ 7#3 →
      ¬(w.getLsbD 3 = true ∧ (w.extractLsb' 0 3 = 1#3 ∨ w.extractLsb' 0 3 = 3#3 ∨ w.extractLsb' 0 3 = 5#3)) →
      ∃ i, decode w = .instr i ∧ opcodeByte i = w.extractLsb' 0 8 ∧ CarriesOperands w i ∧
        step s = exec i { s with host := rest })

/-- R78: over the 256 low bytes, with any payload above them, 9 select an operation, 3 are refused for the modifier, 4 for
the opcode and 240 for the reserved bits. -/
def Obligations.LowBytesArePartitioned : Prop :=
  ∀ payloadBits : BitVec 184,
    let word : Nat → Request := fun b => payloadBits ++ BitVec.ofNat 8 b
    ((List.range 256).countP fun b => match decode (word b) with
      | .instr _ => true
      | .rejected _ => false) = 9 ∧
    ((List.range 256).countP fun b => decide (decode (word b) = .rejected .reservedModifier)) = 3 ∧
    ((List.range 256).countP fun b => decide (decode (word b) = .rejected .reservedOpcode)) = 4 ∧
    ((List.range 256).countP fun b => decide (decode (word b) = .rejected .reservedBits)) = 240

/-- A word selects an operation exactly when it passes the three checks of WellFormed.lean. -/
def Obligations.DecoderAcceptsExactlyWellFormedWords : Prop :=
  ∀ w : Request, (∃ i, decode w = .instr i) ↔ Request.wellFormed w = true

/-- R77: words that differ only in ignored bits (payload bits no format names, `F[7:4]`) are the same operation with the
same operands and have the same outcome. -/
def Obligations.IgnoredBitsChangeNothing : Prop :=
  ∀ (w w' : Request) (i : Instr), decode w = .instr i →
    w.setWidth (namedBits i) = w'.setWidth (namedBits i) →
    decode w' = .instr i ∧
    ∀ (s : State) (rest : List HostEvent),
      step { s with host := .request w :: rest } = step { s with host := .request w' :: rest }

/-- The encoder and the decoder agree on every operation with every operand value. -/
def Obligations.DecodeOfEncodeIsTheOperation : Prop := ∀ i : Instr, decode (encode i) = .instr i

/-- The other direction: re-encoding a decoded word keeps every bit its format names and clears the ignored ones. -/
def Obligations.EncodeOfDecodeKeepsNamedBits : Prop :=
  ∀ (w : Request) (i : Instr), decode w = .instr i → encode i = (w.setWidth (namedBits i)).setWidth 192

/-- Words carried as bytes: byte `k` carries bits `8k + 7 : 8k`, 24 bytes make the request back, and a request is taken
from the front of a byte stream whatever follows it. -/
def Obligations.BytesCarryWordsLeastSignificantFirst : Prop :=
  ∀ (w : Request) (v : Response) (rest : List Byte),
    (bytesOfRequest w).length = 24 ∧
    (∀ k < 24, (bytesOfRequest w)[k]? = some (w.extractLsb' (8 * k) 8)) ∧
    requestOfBytes (bytesOfRequest w) = w ∧
    decodeBytes (bytesOfRequest w ++ rest) = some (decode w, rest) ∧
    bytesOfResponse v = [v.extractLsb' 0 8, v.extractLsb' 8 8]

/-- The modifier bit of the encoded word is the mode, half or policy bit of R65, and 0 where R76 asks for 0. -/
def Obligations.ModifierBitCarriesModeHalfOrPolicy : Prop :=
  ∀ (r : Record) (idx : IndexOperand) (val : ValueOperand),
    (encode .initStd).getLsbD 3 = modeBit .std ∧ (encode .initExt).getLsbD 3 = modeBit .ext ∧
    (encode (.decExtLo r)).getLsbD 3 = halfBit .low ∧ (encode (.decExtHi r)).getLsbD 3 = halfBit .high ∧
    (encode (.cdecFull val)).getLsbD 3 = policyBit .full ∧ (encode (.cdecSafe val)).getLsbD 3 = policyBit .safe ∧
    (encode (.decStd r)).getLsbD 3 = false ∧ (encode (.read idx)).getLsbD 3 = false ∧
    (encode (.cenc val)).getLsbD 3 = false

/-- The worked encodings of R82. -/
def Obligations.WorkedEncodingsOfTheSpec : Prop :=
  decode 0x000000000000000000000000000000000000000000000000#192 = .instr .initStd ∧
  decode 0x000000000000000000000000000000000000000000000008#192 = .instr .initExt ∧
  decode 0x000000000000000000000000000000000000000000001003#192 = .instr (.read 16#8) ∧
  decode 0x00000000000000000000000000000000000000000000AD0C#192 = .instr (.cdecSafe 173#16) ∧
  decode 0x00000000000000000000000000000000000000000005DC05#192 = .instr (.cenc 1500#16)

/-- Every operation has a source form of the textual syntax, and assembling it gives the operation back (the source
form, `sourceOfInstr`, is the model's rendering of R80: log entry 10). -/
def Obligations.SourceFormAssemblesToTheOperation : Prop := ∀ i : Instr, assemble (sourceOfInstr i) = some i

/-! ## The step -/

/-- What the step adds around `exec`: it takes the first event presented and no other, performs the operation it
carries, resets, or waits. The list of events is the model's own (log entries 1 and 2). -/
def Obligations.StepServesTheFirstEvent : Prop :=
  ∀ s : State,
    (s.host = [] → step s = .next s) ∧
    (∀ rest, s.host = .reset :: rest → step s = .next (platformReset { s with host := rest })) ∧
    (∀ w rest i, s.host = .request w :: rest → decode w = .instr i → step s = exec i { s with host := rest })

/-- The word that `withFetchWord` presents is the one the next step performs, on the state as it was. How a word
is presented is the model's own (log entries 1 and 15). -/
def Obligations.StepRunsThePresentedTableWord : Prop :=
  ∀ (s : State) (nbits w : Nat) (i : Instr), decodeTableWord nbits w = some i → step (s.withFetchWord nbits w) = exec i s

/-- R14: a request is done, with the one response it returns, or refused for one of the six reasons of the closed list; it
has no other outcome, no fault (R150) and no refusal of the model's own among them. -/
def Obligations.EveryRequestIsDoneOrRefusedForAListedReason : Prop :=
  ∀ (w : Request) (s : State) (rest : List HostEvent), s.host = .request w :: rest →
    (∃ (t : State) (v : Response), step s = .next t ∧ t.responses = s.responses ++ [v] ∧ t.host = rest) ∨
    ∃ r : Refusal, step s = .refused r ∧
      (r = .notBound ∨ r = .modeMismatch ∨ r = .indexOutOfRange ∨
        r = .reservedOpcode ∨ r = .reservedBits ∨ r = .reservedModifier)

/-- Lines 1 to 4 of R175 are exactly the duties that completion asks of the host: a step completes if and only if what is
presented next, if anything, is in contract. Duties 5, 6 and 12 of R175 do not gate completion and are not enforced (log
entry 12). The list of events is the model's own (log entry 1); that an idle step completes is its inference from R159 and
R171 (log entry 2), and that a presented reset always does from R170 and line 11 of R175 (log entry 6). -/
def Obligations.StepCompletesExactlyInContract : Prop :=
  ∀ s : State, (∃ t, step s = .next t) ↔ inContract s = true

/-- R170 and R32: a reset leaves `BOUND = 0` and `MODE = 0`, returns no response, leaves the requests not yet accepted
to be the first after it, and happens whatever the state; the machine of `State.reset` is in that state too. Nothing is
said of the slots (log entry 4). -/
def Obligations.ResetEndsTheSession : Prop :=
  State.reset.bound = false ∧ State.reset.mode = .std ∧
  ∀ (s : State) (rest : List HostEvent), s.host = .reset :: rest →
    ∃ t, step s = .next t ∧ t.bound = false ∧ t.mode = .std ∧ t.responses = s.responses ∧ t.host = rest

/-! ## Array lifecycle -/

/-- R130: `INIT.STD` from any state, its encoding with any payload, and its example carried to every index. -/
def Obligations.InitStdStartsAStandardSession : Prop :=
  (∀ w : Request, w.extractLsb' 0 8 = 0x00#8 → decode w = .instr .initStd) ∧
  ∀ s : State, ∃ t, exec .initStd s = .next t ∧
    (∀ j : Fin 32, t.slot j = 992#11) ∧ t.mode = .std ∧ t.bound = true ∧
    t.responses = s.responses ++ [0#16] ∧ t.host = s.host ∧ t.draws = s.draws ∧
    (∀ idx : IndexOperand, idx.toNat < 18 →
      exec (.read idx) t = .next { t with responses := t.responses ++ [1500#16] }) ∧
    (∀ idx : IndexOperand, 18 ≤ idx.toNat → exec (.read idx) t = .refused .indexOutOfRange)

/-- R131: `INIT.EXT` likewise. -/
def Obligations.InitExtStartsAnExtendedSession : Prop :=
  (∀ w : Request, w.extractLsb' 0 8 = 0x08#8 → decode w = .instr .initExt) ∧
  ∀ s : State, ∃ t, exec .initExt s = .next t ∧
    (∀ j : Fin 32, t.slot j = 992#11) ∧ t.mode = .ext ∧ t.bound = true ∧
    t.responses = s.responses ++ [0#16] ∧ t.host = s.host ∧ t.draws = s.draws ∧
    (∀ idx : IndexOperand, idx.toNat < 32 →
      exec (.read idx) t = .next { t with responses := t.responses ++ [1500#16] }) ∧
    (∀ idx : IndexOperand, 32 ≤ idx.toNat → exec (.read idx) t = .refused .indexOutOfRange)

/-- R134 with R135: the two refusals in order, and otherwise the full-policy decode of the named slot with every
other part of the state unchanged. -/
def Obligations.ReadAnswersTheFullDecodeOfItsSlot : Prop :=
  (∀ w : Request, w.extractLsb' 0 8 = 0x03#8 → decode w = .instr (.read (w.extractLsb' 8 8))) ∧
  ∀ (idx : IndexOperand) (s : State),
    (s.bound = false → exec (.read idx) s = .refused .notBound) ∧
    (s.bound = true → s.mode = .std → 18 ≤ idx.toNat → exec (.read idx) s = .refused .indexOutOfRange) ∧
    (s.bound = true → s.mode = .ext → 32 ≤ idx.toNat → exec (.read idx) s = .refused .indexOutOfRange) ∧
    (∀ i : Fin 32, i.val = idx.toNat → s.bound = true → (s.mode = .std → i.val < 18) →
      ∃ v : Nat, v = (s.slot i).toNat * 5 / 8 + 880 ∧ 880 ≤ v ∧ v ≤ 2159 ∧
        exec (.read idx) s = .next { s with responses := s.responses ++ [BitVec.ofNat 16 v] })

/-- R132: the initial value is computed as the source computes it, decodes to exactly 1500, and is the raw value that
encoding 1500 returns, though not the only one that reads as 1500. -/
def Obligations.InitialValueIsTheCentre : Prop :=
  Config.rawCenter = 992 ∧ 16 * 1500 / 10 - 1408 = 992 ∧ dec 992 0 2047 = 1500 ∧ dec 993 0 2047 = 1500 ∧ enc 1500 = 992

/-! ## Frame decode -/

/-- R94: `DECSTD`, with its encoding, its preconditions in order, its 18 slot writes, its status, and everything it
leaves unchanged. -/
def Obligations.DecStdWritesTheFrame : Prop :=
  (∀ w : Request, w.extractLsb' 0 8 = 0x01#8 → ∃ r, decode w = .instr (.decStd r) ∧ CarriesRecord w r) ∧
  ∀ (r : Record) (s : State),
    (s.bound = false → exec (.decStd r) s = .refused .notBound) ∧
    (s.bound = true → s.mode ≠ .std → exec (.decStd r) s = .refused .modeMismatch) ∧
    (s.bound = true → s.mode = .std → ∃ t, exec (.decStd r) s = .next t ∧
      (∀ (j : Fin 32) (h : j.val < 16), t.slot j = r.chans[j.val]) ∧
      t.slot 16 = (if r.digitalChannel1 then 1812#11 else 173#11) ∧
      t.slot 17 = (if r.digitalChannel2 then 1812#11 else 173#11) ∧
      (∀ j : Fin 32, 18 ≤ j.val → t.slot j = s.slot j) ∧
      t.mode = s.mode ∧ t.bound = s.bound ∧ t.host = s.host ∧ t.draws = s.draws ∧
      t.responses = s.responses ++ [if r.failsafeActive then 3#16 else if r.signalLoss then 5#16 else 1#16])

/-- R95: `DECEXT.LO` likewise, in the extended mode, with `EXT_DIG_BASE = 16`. -/
def Obligations.DecExtLoWritesTheLowHalf : Prop :=
  (∀ w : Request, w.extractLsb' 0 8 = 0x02#8 → ∃ r, decode w = .instr (.decExtLo r) ∧ CarriesRecord w r) ∧
  ∀ (r : Record) (s : State),
    (s.bound = false → exec (.decExtLo r) s = .refused .notBound) ∧
    (s.bound = true → s.mode ≠ .ext → exec (.decExtLo r) s = .refused .modeMismatch) ∧
    (s.bound = true → s.mode = .ext → ∃ t, exec (.decExtLo r) s = .next t ∧
      (∀ (j : Fin 32) (h : j.val < 16), t.slot j = r.chans[j.val]) ∧
      t.slot 16 = (if r.digitalChannel1 then 1812#11 else 173#11) ∧
      t.slot 17 = (if r.digitalChannel2 then 1812#11 else 173#11) ∧
      (∀ j : Fin 32, 18 ≤ j.val → t.slot j = s.slot j) ∧
      t.mode = s.mode ∧ t.bound = s.bound ∧ t.host = s.host ∧ t.draws = s.draws ∧
      t.responses = s.responses ++ [if r.failsafeActive then 3#16 else if r.signalLoss then 5#16 else 1#16])

/-- R96: `DECEXT.HI` writes slots 16 to 31 and nothing else; the digital predicates are ignored. -/
def Obligations.DecExtHiWritesTheHighHalf : Prop :=
  (∀ w : Request, w.extractLsb' 0 8 = 0x0A#8 → ∃ r, decode w = .instr (.decExtHi r) ∧ CarriesRecord w r) ∧
  ∀ (r : Record) (s : State),
    (s.bound = false → exec (.decExtHi r) s = .refused .notBound) ∧
    (s.bound = true → s.mode ≠ .ext → exec (.decExtHi r) s = .refused .modeMismatch) ∧
    (s.bound = true → s.mode = .ext → ∃ t, exec (.decExtHi r) s = .next t ∧
      (∀ (j : Fin 32) (i : Fin 16), j.val = 16 + i.val → t.slot j = r.chans[i]) ∧
      (∀ j : Fin 32, j.val < 16 → t.slot j = s.slot j) ∧
      t.mode = s.mode ∧ t.bound = s.bound ∧ t.host = s.host ∧ t.draws = s.draws ∧
      t.responses = s.responses ++ [if r.failsafeActive then 3#16 else if r.signalLoss then 5#16 else 1#16])

/-- R93: the status is 3 with `failsafeActive` whatever `signalLoss` is, else 5 with `signalLoss`, else 1, in all three
operations; it depends on nothing else, and the slots are written the same in all four cases. -/
def Obligations.StatusFollowsPrecedenceAndNeverGatesTheWrite : Prop :=
  ∀ (op : Record → Instr), op = .decStd ∨ op = .decExtLo ∨ op = .decExtHi →
  ∀ (r : Record) (s t : State), exec (op r) s = .next t →
    ∃ v : Response, t.responses = s.responses ++ [v] ∧
      (r.failsafeActive = true → v = 3#16) ∧
      (r.failsafeActive = false → r.signalLoss = true → v = 5#16) ∧
      (r.failsafeActive = false → r.signalLoss = false → v = 1#16) ∧
      ∀ loss failsafe : Bool, ∃ t', exec (op { r with signalLoss := loss, failsafeActive := failsafe }) s = .next t' ∧
        t'.block = t.block

/-- R92: the two preconditions, in their order, for all three operations; when both pass the operation cannot fail. -/
def Obligations.DecodePreconditionsInOrder : Prop :=
  ∀ (op : Record → Instr) (m : Mode), (op, m) = (.decStd, .std) ∨ (op, m) = (.decExtLo, .ext) ∨ (op, m) = (.decExtHi, .ext) →
  ∀ (r : Record) (s : State),
    (s.bound = false → exec (op r) s = .refused .notBound) ∧
    (s.bound = true → s.mode ≠ m → exec (op r) s = .refused .modeMismatch) ∧
    (s.bound = true → s.mode = m → ∃ t, exec (op r) s = .next t)

/-- R97: after any sequence of extended-mode decodes slots 16 and 17 hold what the most recent of the two operations wrote
there: `chan0` and `chan1` of a high half, the sentinels of a low half. -/
def Obligations.SharedSlotsHoldTheLastHalf : Prop :=
  ∀ (halves : List (Half × Record)) (r : Record) (s : State), s.bound = true → s.mode = .ext →
    (∃ t, runSteps (halves.length + 1)
        { s with host := (halves ++ [(Half.high, r)]).map fun p => .request (encode (halfOperation p)) } = .next t ∧
      t.slot 16 = r.chans[0] ∧ t.slot 17 = r.chans[1]) ∧
    (∃ t, runSteps (halves.length + 1)
        { s with host := (halves ++ [(Half.low, r)]).map fun p => .request (encode (halfOperation p)) } = .next t ∧
      t.slot 16 = (if r.digitalChannel1 then 1812#11 else 173#11) ∧
      t.slot 17 = (if r.digitalChannel2 then 1812#11 else 173#11))

/-- R99: `DECSTD` and `DECEXT.LO` compute the same slot writes and the same status from the same record. -/
def Obligations.StandardAndLowHalfComputeTheSame : Prop :=
  ∀ (r : Record) (s s' t t' : State), exec (.decStd r) s = .next t → exec (.decExtLo r) s' = .next t' →
    (∀ j : Fin 32, j.val < 18 → t.slot j = t'.slot j) ∧
    ∃ v : Response, t.responses = s.responses ++ [v] ∧ t'.responses = s'.responses ++ [v]

/-- R102: what a reader sees after a `DECSTD`: 2012 or 988 in the digital slots, the full decode of the field in the
analog ones. -/
def Obligations.ReaderSeesTheDecodedFrame : Prop :=
  ∀ (r : Record) (s : State), s.bound = true → s.mode = .std → ∃ t, exec (.decStd r) s = .next t ∧
    exec (.read 16#8) t =
      .next { t with responses := t.responses ++ [if r.digitalChannel1 then 2012#16 else 988#16] } ∧
    exec (.read 17#8) t =
      .next { t with responses := t.responses ++ [if r.digitalChannel2 then 2012#16 else 988#16] } ∧
    ∀ i : Fin 16, exec (.read (BitVec.ofNat 8 i.val)) t =
      .next { t with responses := t.responses ++ [BitVec.ofNat 16 (r.chans[i].toNat * 5 / 8 + 880)] }

/-- R101: from the start of an extended session any sequence of halves completes, any further half then completes and
overwrites its own write set only, and until the first high half slots 18 to 31 hold 992. -/
def Obligations.HalvesCompleteInAnySequence : Prop :=
  ∀ (s₀ s : State), exec .initExt s₀ = .next s → ∀ halves : List (Half × Record),
    ∃ t, runSteps halves.length { s with host := halves.map fun p => .request (encode (halfOperation p)) } = .next t ∧
      ((∀ p ∈ halves, p.1 = .low) → ∀ j : Fin 32, 18 ≤ j.val → t.slot j = 992#11) ∧
      ∀ next : Half × Record, ∃ u, exec (halfOperation next) t = .next u ∧
        ∀ j : Fin 32, u.slot j = (slotWrite (halfOperation next) j).getD (t.slot j)

/-- The stale half that R176 asks a model to admit: between a low half and the next high half, a reader gets the new
low half from indices 0 to 15 and, from 18 to 31, the value it would have got before. -/
def Obligations.ReaderMaySeeAStaleHighHalf : Prop :=
  ∀ (r : Record) (s : State), s.bound = true → s.mode = .ext → ∃ t, exec (.decExtLo r) s = .next t ∧
    (∀ i : Fin 16, exec (.read (BitVec.ofNat 8 i.val)) t =
      .next { t with responses := t.responses ++ [BitVec.ofNat 16 (r.chans[i].toNat * 5 / 8 + 880)] }) ∧
    (∀ idx : IndexOperand, 18 ≤ idx.toNat → idx.toNat < 32 → ∃ v : Response,
      exec (.read idx) s = .next { s with responses := s.responses ++ [v] } ∧
      exec (.read idx) t = .next { t with responses := t.responses ++ [v] })

/-! ## Value codec -/

/-- R112: `CDEC.FULL` in any state, its encoding, its result and its range, nothing but the response changed. -/
def Obligations.CdecFullAnswersTheFullDecode : Prop :=
  (∀ w : Request, w.extractLsb' 0 8 = 0x04#8 → decode w = .instr (.cdecFull (w.extractLsb' 8 16))) ∧
  ∀ (val : ValueOperand) (s : State), ∃ v : Nat, v = min val.toNat 2047 * 5 / 8 + 880 ∧ 880 ≤ v ∧ v ≤ 2159 ∧
    exec (.cdecFull val) s = .next { s with responses := s.responses ++ [BitVec.ofNat 16 v] }

/-- R113: `CDEC.SAFE` likewise; every operand up to 173 gives 988, every one from 1812 gives 2012, and between the
bounds it equals `CDEC.FULL`. -/
def Obligations.CdecSafeAnswersTheSafeDecode : Prop :=
  (∀ w : Request, w.extractLsb' 0 8 = 0x0C#8 → decode w = .instr (.cdecSafe (w.extractLsb' 8 16))) ∧
  ∀ (val : ValueOperand) (s : State), ∃ v : Nat, v = max 173 (min val.toNat 1812) * 5 / 8 + 880 ∧ 988 ≤ v ∧ v ≤ 2012 ∧
    exec (.cdecSafe val) s = .next { s with responses := s.responses ++ [BitVec.ofNat 16 v] } ∧
    (val.toNat ≤ 173 → v = 988) ∧ (1812 ≤ val.toNat → v = 2012) ∧
    (173 ≤ val.toNat → val.toNat ≤ 1812 → exec (.cdecSafe val) s = exec (.cdecFull val) s)

/-- R114: `CENC` likewise; `q` is the floor of the exact signed quotient. -/
def Obligations.CencAnswersTheClampedEncode : Prop :=
  (∀ w : Request, w.extractLsb' 0 8 = 0x05#8 → decode w = .instr (.cenc (w.extractLsb' 8 16))) ∧
  ∀ (val : ValueOperand) (s : State), ∃ (q : Int) (v : Nat),
    5 * q ≤ ((val.toNat : Int) - 880) * 8 + 4 ∧ ((val.toNat : Int) - 880) * 8 + 4 < 5 * (q + 1) ∧
    (v : Int) = max 173 (min q 1812) ∧
    exec (.cenc val) s = .next { s with responses := s.responses ++ [BitVec.ofNat 16 v] } ∧
    (val.toNat ≤ 988 → v = 173) ∧ (2012 ≤ val.toNat → v = 1812) ∧
    (val.toNat = 989 → v = 175) ∧ (val.toNat = 2011 → v = 1810)

/-- R116: ranges, monotonicity for every 16-bit operand, and the 1280 distinct results of the full decode. -/
def Obligations.CodecIsMonotoneInRange : Prop :=
  (∀ x y : Nat, x ≤ y → y < 65536 →
    dec x 0 2047 ≤ dec y 0 2047 ∧ dec x 173 1812 ≤ dec y 173 1812 ∧ enc x ≤ enc y) ∧
  (∀ x : Nat, x < 65536 →
    880 ≤ dec x 0 2047 ∧ dec x 0 2047 ≤ 2159 ∧ 988 ≤ dec x 173 1812 ∧ dec x 173 1812 ≤ 2012) ∧
  ((Finset.range 2048).image fun x : Nat => dec x 0 2047).card = 1280

/-- R117: the round trips. Decoding then encoding drifts by at most one, downwards; encoding then decoding is exact. -/
def Obligations.RoundTripDriftsByAtMostOne : Prop :=
  enc (dec 173 173 1812) = 173 ∧ enc (dec 1812 173 1812) = 1812 ∧
  (∀ x : Nat, 173 ≤ x → x ≤ 1812 → enc (dec x 173 1812) = x ∨ enc (dec x 173 1812) = x - 1) ∧
  ((List.range' 173 1640).countP fun x => decide (enc (dec (x : Int) 173 1812) = x)) = 1025 ∧
  ((List.range' 173 1640).countP fun x => decide (enc (dec (x : Int) 173 1812) = x - 1)) = 615 ∧
  (∀ n : Nat, 988 ≤ n → n ≤ 2012 → dec (enc n) 0 2047 = n)

/-- R118: the addend 4 makes the encode a ceiling, not a round-half-up; the two differ for 410 of the operands from 988
to 2012, the first of them 989. -/
def Obligations.EncodeTakesTheCeiling : Prop :=
  (∀ a : Int, a ≤ 5 * ((a + 4) / 5) ∧ 5 * ((a + 4) / 5) < a + 5) ∧
  (∀ n : Nat, 988 ≤ n → n ≤ 2012 → ((n : Int) - 880) * 8 ≤ 5 * enc n ∧ 5 * enc n < ((n : Int) - 880) * 8 + 5) ∧
  ((List.range' 988 1025).countP fun n => decide (enc n ≠ (((n : Int) - 880) * 8 + 2) / 5)) = 410 ∧
  enc 988 = ((988 - 880) * 8 + 2) / 5 ∧ enc 989 = 175 ∧ ((989 - 880) * 8 + 2) / 5 = (174 : Int)

/-- R119: a division that truncates toward zero gives the same encode for every operand, because the clamp hides the
difference. -/
def Obligations.TruncatingDivisionEncodesTheSame : Prop :=
  ∀ n : Nat, n < 65536 → clamp (((((n : Int) - 880) * 8 + 4)).tdiv 5) 173 1812 = enc n

/-- The one-sided clamps of R120: whatever lies outside the digital bounds encodes to them after a full decode. -/
def Obligations.FullDecodeOutsideBoundsEncodesToBounds : Prop :=
  (∀ x : Nat, x < 173 → enc (dec x 0 2047) = 173) ∧ (∀ x : Nat, 1812 < x → enc (dec x 0 2047) = 1812)

/-- The arithmetic of the safe view of R136 that a host can compute from a `READ`: the full decode clamped to 988..2012, which is also
the safe decode of the encode of the `READ` result. -/
def Obligations.SafeViewFollowsFromTheFullRead : Prop :=
  ∀ v : Raw, dec v.toNat 173 1812 = clamp (dec v.toNat 0 2047) 988 2012 ∧
    dec (enc (dec v.toNat 0 2047)) 173 1812 = dec v.toNat 173 1812

/-! ## The whole machine -/

/-- The access rights of R24 (derived there), for every operation at once: what it leaves in each slot is the value of its
write set, which no slot enters, or what the slot held; and its answer depends on no slot but the one a `READ` names. -/
def Obligations.OperationsAccessExactlyTheirSlots : Prop :=
  (∀ (i : Instr) (s t : State) (j : Fin 32), exec i s = .next t → t.slot j = (slotWrite i j).getD (s.slot j)) ∧
  ∀ (i : Instr) (s t : State) (ch : Slots),
    (∀ idx (j : Fin 32), i = .read idx → j.val = idx.toNat → ch[j] = s.slot j) →
    exec i s = .next t → ∃ t', exec i { s with ch := ch } = .next t' ∧ t'.responses = t.responses

/-- `MODE` and `BOUND` are written only by `INIT`: every other operation leaves both alone. -/
def Obligations.OnlyInitWritesModeAndBound : Prop :=
  ∀ (i : Instr) (s t : State), exec i s = .next t →
    (i = .initStd → t.mode = .std ∧ t.bound = true) ∧ (i = .initExt → t.mode = .ext ∧ t.bound = true) ∧
    (i ≠ .initStd → i ≠ .initExt → t.mode = s.mode ∧ t.bound = s.bound)

/-- R48: `READ` and the codec operations change no state, the codec's answers are functions of the operand alone, and a
reader's request may be repeated or dropped without changing any later answer or the block. -/
def Obligations.ReaderOperationsHaveNoSideEffect : Prop :=
  ∀ (i : Instr) (s t : State), instrRole i ≠ .writer → exec i s = .next t →
    ∃ v : Response, t = { s with responses := s.responses ++ [v] } ∧
      exec i t = .next { s with responses := s.responses ++ [v, v] } ∧
      (instrRole i = .either → ∀ s', exec i s' = .next { s' with responses := s'.responses ++ [v] }) ∧
      ∀ (k : Instr) (u : State), exec k s = .next u →
        ∃ (u' : State) (a : Response), exec k t = .next u' ∧ u'.block = u.block ∧
          u.responses = s.responses ++ [a] ∧ u'.responses = t.responses ++ [a]

/-- R173: between reset and the first `INIT` the initialisations and the codec are performed, and the decodes and `READ` are
refused with `NotBound`, whatever else the state holds. -/
def Obligations.BeforeInitOnlyInitAndCodecArePerformed : Prop :=
  ∀ s : State, s.bound = false →
    (∀ i : Instr, i = .initStd ∨ i = .initExt ∨ (∃ val, i = .cdecFull val ∨ i = .cdecSafe val ∨ i = .cenc val) →
      ∃ t, exec i s = .next t) ∧
    (∀ i : Instr, (∃ r, i = .decStd r ∨ i = .decExtLo r ∨ i = .decExtHi r) ∨ (∃ idx, i = .read idx) →
      exec i s = .refused .notBound)

/-- The invariant of a session holds after reset. -/
def Obligations.ResetMeetsTheSessionInvariant : Prop := SessionInvariant State.reset

/-- Every step keeps it: `MODE` is clear without a session, and in a standard session the invisible slots stay at 992 and
the digital slots hold 992 or a sentinel. -/
def Obligations.EveryStepKeepsTheSessionInvariant : Prop :=
  ∀ s t : State, SessionInvariant s → step s = .next t → SessionInvariant t

/-- Along any run of requests that completes, each slot holds what the last request to write it wrote, and a `READ` of a
visible index then answers the full decode of that value. -/
def Obligations.ReadReturnsTheMostRecentWrite : Prop :=
  ∀ (ws : List Request) (s t : State), runSteps ws.length { s with host := ws.map .request } = .next t →
    (∀ j : Fin 32, t.slot j = (lastWrite j ws).getD (s.slot j)) ∧
    ∀ (j : Fin 32) (v : Raw), lastWrite j ws = some v → t.bound = true → j.val < visibleSlots t.mode →
      exec (.read (BitVec.ofNat 8 j.val)) t =
        .next { t with responses := t.responses ++ [BitVec.ofNat 16 (v.toNat * 5 / 8 + 880)] }

/-- Every request of a run that completes is answered, one response each, in order, and nothing is pending at the end.
The lists of events and of responses are the model's own (log entries 1 and 3). -/
def Obligations.RunAnswersEveryRequest : Prop :=
  ∀ (ws : List Request) (s t : State), runSteps ws.length { s with host := ws.map .request } = .next t →
    ∃ vs : List Response, vs.length = ws.length ∧ t.responses = s.responses ++ vs ∧ t.host = []

/-- Readers cannot disturb the writer: for every interleaving of a writer's requests with any number of reader requests
that completes, the writer's requests alone complete too and leave the same block state. That all requesters' requests
stand in one list is the model's own (log entries 1 and 12). -/
def Obligations.ReadersNeverDisturbTheArray : Prop :=
  ∀ (ws rs : List Request) (es : List HostEvent) (s t : State),
    (∀ w ∈ rs, readerRequest w = true) → Interleaving (ws.map .request) (rs.map .request) es →
    runSteps es.length { s with host := es } = .next t →
    ∃ u, runSteps ws.length { s with host := ws.map .request } = .next u ∧ u.block = t.block

/-- The safe view of R136 on the responses themselves: in any session, `READ` of a visible index, `CENC` of its response
and `CDEC.SAFE` of that one complete in turn, and the last response is both the `READ` response clamped to 988..2012 and
what `CDEC.SAFE` would answer to the slot's raw value. -/
def Obligations.SafeViewIsObtainedThroughTheResponses : Prop :=
  ∀ (s : State) (idx : IndexOperand) (j : Fin 32),
    s.bound = true → j.val = idx.toNat → j.val < visibleSlots s.mode →
    ∃ (t u v : State) (full raw safe : Response),
      exec (.read idx) s = .next t ∧ t.responses = s.responses ++ [full] ∧
      exec (.cenc full) t = .next u ∧ u.responses = t.responses ++ [raw] ∧
      exec (.cdecSafe raw) u = .next v ∧ v.responses = u.responses ++ [safe] ∧
      v = { s with responses := v.responses } ∧
      safe.toNat = max 988 (min full.toNat 2012) ∧
      exec (.cdecSafe ((s.slot j).setWidth 16)) s = .next { s with responses := s.responses ++ [safe] }
end

