-- ==== Sys2Proof/Laws/State.lean ====
section
/-! SUPPORT. One lemma per field per update of the state, so that no proof unfolds an update. -/

namespace Sys2Proof.Machine

variable (s : State)

@[simp] theorem State.answered_ch (v : Response) : (s.answered v).ch = s.ch := rfl
@[simp] theorem State.answered_mode (v : Response) : (s.answered v).mode = s.mode := rfl
@[simp] theorem State.answered_bound (v : Response) : (s.answered v).bound = s.bound := rfl
@[simp] theorem State.answered_host (v : Response) : (s.answered v).host = s.host := rfl
@[simp] theorem State.answered_responses (v : Response) : (s.answered v).responses = s.responses ++ [v] := rfl
@[simp] theorem State.answered_draws (v : Response) : (s.answered v).draws = s.draws := rfl

@[simp] theorem State.withSlots_ch (c : Slots) : (s.withSlots c).ch = c := rfl
@[simp] theorem State.withSlots_mode (c : Slots) : (s.withSlots c).mode = s.mode := rfl
@[simp] theorem State.withSlots_bound (c : Slots) : (s.withSlots c).bound = s.bound := rfl
@[simp] theorem State.withSlots_host (c : Slots) : (s.withSlots c).host = s.host := rfl
@[simp] theorem State.withSlots_responses (c : Slots) : (s.withSlots c).responses = s.responses := rfl
@[simp] theorem State.withSlots_draws (c : Slots) : (s.withSlots c).draws = s.draws := rfl

@[simp] theorem State.present_ch (e : HostEvent) : (s.present e).ch = s.ch := rfl
@[simp] theorem State.present_mode (e : HostEvent) : (s.present e).mode = s.mode := rfl
@[simp] theorem State.present_bound (e : HostEvent) : (s.present e).bound = s.bound := rfl
@[simp] theorem State.present_host (e : HostEvent) : (s.present e).host = e :: s.host := rfl
@[simp] theorem State.present_responses (e : HostEvent) : (s.present e).responses = s.responses := rfl
@[simp] theorem State.present_draws (e : HostEvent) : (s.present e).draws = s.draws := rfl

@[simp] theorem startSession_ch (m : Mode) : (startSession m s).ch = Vector.replicate 32 992#11 := rfl
@[simp] theorem startSession_mode (m : Mode) : (startSession m s).mode = m := rfl
@[simp] theorem startSession_bound (m : Mode) : (startSession m s).bound = true := rfl
@[simp] theorem startSession_host (m : Mode) : (startSession m s).host = s.host := rfl
@[simp] theorem startSession_responses (m : Mode) : (startSession m s).responses = s.responses := rfl
@[simp] theorem startSession_draws (m : Mode) : (startSession m s).draws = s.draws := rfl

@[simp] theorem platformReset_ch : (platformReset s).ch = freeSlots s.draws := rfl
@[simp] theorem platformReset_mode : (platformReset s).mode = .std := rfl
@[simp] theorem platformReset_bound : (platformReset s).bound = false := rfl
@[simp] theorem platformReset_host : (platformReset s).host = s.host := rfl
@[simp] theorem platformReset_responses : (platformReset s).responses = s.responses := rfl
@[simp] theorem platformReset_draws : (platformReset s).draws = s.draws + 1 := rfl

/-- Slot `i` after the `draw`-th reset is the free value of that draw. -/
theorem freeSlots_getElem (draw : Nat) (i : Fin 32) : (freeSlots draw)[i] = Config.resetSlot draw i := by
  simp [freeSlots]

theorem State.slot_def (i : Fin 32) : s.slot i = s.ch[i] := rfl

theorem State.block_eq : s.block = (s.ch, s.mode, s.bound) := rfl

/-- Two states with equal fields are equal. -/
theorem State.ext_fields (s t : State) (hc : s.ch = t.ch) (hm : s.mode = t.mode) (hb : s.bound = t.bound)
    (hh : s.host = t.host) (hr : s.responses = t.responses) (hd : s.draws = t.draws) : s = t := by
  cases s; cases t; simp_all

end Sys2Proof.Machine
end

