-- ==== Sys2Proof/Laws/Codec.lean ====
section
/-! SUPPORT. The arithmetic of the value codec (42_codec.md). -/

namespace Sys2Proof.Machine

/-- `clamp` is the nearest value of the range. -/
theorem clamp_eq_max_min {v lo hi : Int} (h : lo ≤ hi) : clamp v lo hi = max lo (min v hi) := by
  unfold clamp
  split <;> [skip; split] <;> omega

/-- The bounds of `clamp`. -/
theorem clamp_bounds {v lo hi : Int} (h : lo ≤ hi) : lo ≤ clamp v lo hi ∧ clamp v lo hi ≤ hi := by
  rw [clamp_eq_max_min h]; omega

/-- `clamp` is non-decreasing. -/
theorem clamp_mono {v w lo hi : Int} (h : lo ≤ hi) (hv : v ≤ w) : clamp v lo hi ≤ clamp w lo hi := by
  rw [clamp_eq_max_min h, clamp_eq_max_min h]; omega

/-- `dec` with its constants written out (R111). -/
theorem dec_eq (raw lo hi : Int) : dec raw lo hi = clamp raw lo hi * 5 / 8 + 880 := rfl

/-- `enc` with its constants written out (R111). -/
theorem enc_eq (norm : Int) : enc norm = clamp (((norm - 880) * 8 + 4) / 5) 173 1812 := rfl

/-- Full-policy decode of a value that cannot be negative: only the upper bound can bind (R112). -/
theorem dec_full_natCast (n : Nat) : dec n 0 2047 = ((min n 2047 * 5 / 8 + 880 : Nat) : Int) := by
  rw [dec_eq, clamp_eq_max_min (by omega)]; omega

/-- Safe-policy decode of a natural number (R113). -/
theorem dec_safe_natCast (n : Nat) : dec n 173 1812 = ((max 173 (min n 1812) * 5 / 8 + 880 : Nat) : Int) := by
  rw [dec_eq, clamp_eq_max_min (by omega)]; omega

/-- `zext_16` of a natural number below 2^16 is that number. -/
theorem zext16_natCast (n : Nat) : zext16 n = BitVec.ofNat 16 n := by
  simp [zext16]

end Sys2Proof.Machine
end

