-- ==== Sys2Proof/Laws/Decode.lean ====
section
/-! SUPPORT. The decoder in terms of the low byte, and the bits of the encoder's fields. -/

namespace Sys2Proof

/-! The decoder reads its choice from the low byte `REQ[7:0]` alone (30_encoding.md R72). -/

theorem opField_of_lowByte (w : Request) : opField w = (w.extractLsb' 0 8).extractLsb' 0 3 := by
  ext k hk
  simp [opField, bitField]

theorem modifierBit_of_lowByte (w : Request) : modifierBit w = (w.extractLsb' 0 8).getLsbD 3 := by
  simp [modifierBit]

theorem reservedField_of_lowByte (w : Request) : reservedField w = (w.extractLsb' 0 8).extractLsb' 4 4 := by
  ext k hk
  simp [reservedField, bitField]

/-- The decoder in terms of the low byte `b` and the operand fields. -/
theorem decode_of_lowByte (w : Request) (b : BitVec 8) (h : w.extractLsb' 0 8 = b) :
    decode w =
      if b.extractLsb' 4 4 ≠ 0#4 then .rejected .reservedBits
      else
        match (b.extractLsb' 0 3).toNat, b.getLsbD 3 with
        | 0, false => .instr .initStd
        | 0, true => .instr .initExt
        | 1, false => .instr (.decStd (recordField w))
        | 1, true => .rejected .reservedModifier
        | 2, false => .instr (.decExtLo (recordField w))
        | 2, true => .instr (.decExtHi (recordField w))
        | 3, false => .instr (.read (indexField w))
        | 3, true => .rejected .reservedModifier
        | 4, false => .instr (.cdecFull (valueField w))
        | 4, true => .instr (.cdecSafe (valueField w))
        | 5, false => .instr (.cenc (valueField w))
        | 5, true => .rejected .reservedModifier
        | _, _ => .rejected .reservedOpcode := by
  subst h
  rw [decode, opField_of_lowByte, modifierBit_of_lowByte, reservedField_of_lowByte] <;> rfl

/-! The nine rows of R72. -/

variable {w : Request}

theorem decode_initStd (h : w.extractLsb' 0 8 = 0x00#8) : decode w = .instr .initStd := by
  rw [decode_of_lowByte w _ h, if_neg (by decide)]; rfl

theorem decode_initExt (h : w.extractLsb' 0 8 = 0x08#8) : decode w = .instr .initExt := by
  rw [decode_of_lowByte w _ h, if_neg (by decide)]; rfl

theorem decode_decStd (h : w.extractLsb' 0 8 = 0x01#8) : decode w = .instr (.decStd (recordField w)) := by
  rw [decode_of_lowByte w _ h, if_neg (by decide)]; rfl

theorem decode_decExtLo (h : w.extractLsb' 0 8 = 0x02#8) : decode w = .instr (.decExtLo (recordField w)) := by
  rw [decode_of_lowByte w _ h, if_neg (by decide)]; rfl

theorem decode_decExtHi (h : w.extractLsb' 0 8 = 0x0A#8) : decode w = .instr (.decExtHi (recordField w)) := by
  rw [decode_of_lowByte w _ h, if_neg (by decide)]; rfl

theorem decode_read (h : w.extractLsb' 0 8 = 0x03#8) : decode w = .instr (.read (indexField w)) := by
  rw [decode_of_lowByte w _ h, if_neg (by decide)]; rfl

theorem decode_cdecFull (h : w.extractLsb' 0 8 = 0x04#8) : decode w = .instr (.cdecFull (valueField w)) := by
  rw [decode_of_lowByte w _ h, if_neg (by decide)]; rfl

theorem decode_cdecSafe (h : w.extractLsb' 0 8 = 0x0C#8) : decode w = .instr (.cdecSafe (valueField w)) := by
  rw [decode_of_lowByte w _ h, if_neg (by decide)]; rfl

theorem decode_cenc (h : w.extractLsb' 0 8 = 0x05#8) : decode w = .instr (.cenc (valueField w)) := by
  rw [decode_of_lowByte w _ h, if_neg (by decide)]; rfl

/-- The low bytes that pass the three checks of R73 are the nine of R72. -/
theorem lowByte_cases (b : BitVec 8) (h4 : b.extractLsb' 4 4 = 0#4) (ho : (b.extractLsb' 0 3).toNat < 6)
    (hm : b.getLsbD 3 = true → (b.extractLsb' 0 3).toNat = 0 ∨ (b.extractLsb' 0 3).toNat = 2 ∨
      (b.extractLsb' 0 3).toNat = 4) :
    b = 0x00#8 ∨ b = 0x08#8 ∨ b = 0x01#8 ∨ b = 0x02#8 ∨ b = 0x0A#8 ∨ b = 0x03#8 ∨ b = 0x04#8 ∨ b = 0x0C#8 ∨
      b = 0x05#8 := by
  revert b; decide

/-- A word that carries an operation has that operation's low byte. -/
theorem lowByte_of_decode {i : Instr} (h : decode w = .instr i) : w.extractLsb' 0 8 = opcodeByte i := by
  generalize hb : w.extractLsb' 0 8 = b
  rw [decode_of_lowByte w b hb] at h
  have hb' : b.extractLsb' 4 4 = 0#4 := by
    by_contra hne
    rw [if_pos hne] at h
    cases h
  rw [if_neg (by simpa using hb')] at h
  have hrow : b = 0x00#8 ∨ b = 0x08#8 ∨ b = 0x01#8 ∨ b = 0x02#8 ∨ b = 0x0A#8 ∨ b = 0x03#8 ∨ b = 0x04#8 ∨ b = 0x0C#8 ∨
      b = 0x05#8 := by
    refine lowByte_cases b hb' ?_ ?_
    · by_contra hge
      split at h <;> first | omega | cases h
    · intro hm
      split at h <;> simp_all
  rcases hrow with e | e | e | e | e | e | e | e | e <;> subst e <;> cases h <;> rfl

/-! Fields placed in a word. -/

/-- Bit `k` of a placed field. -/
theorem placeField_getLsbD {n : Nat} (v : BitVec n) (lo k : Nat) :
    (placeField v lo).getLsbD k = (decide (k < 192) && decide (lo ≤ k) && v.getLsbD (k - lo)) := by
  simp only [placeField, BitVec.getLsbD_shiftLeft, BitVec.getLsbD_setWidth]
  by_cases h1 : k < 192
  · have h3 : k - lo < 192 := by omega
    by_cases h2 : lo ≤ k <;> simp [h1, h2, h3]
  · simp [h1]

/-- Bit `k` of the union of a list of words. -/
theorem foldr_or_getLsbD {α : Type} (f : α → Request) (l : List α) (k : Nat) :
    (l.foldr (fun i acc => f i ||| acc) 0#192).getLsbD k = l.any fun i => (f i).getLsbD k := by
  induction l with
  | nil => simp
  | cons a l ih => simp only [List.foldr_cons, BitVec.getLsbD_or, ih, List.any_cons]

/-- Bit `b` of field `chan<i>` stands at bit `11i + 8 + b` (R69). -/
theorem chansPayload_getLsbD_chan (r : Record) (i : Fin 16) (b : Nat) (hb : b < 11) :
    (chansPayload r).getLsbD (11 * i.val + 8 + b) = r.chans[i].getLsbD b := by
  rw [chansPayload, foldr_or_getLsbD, Bool.eq_iff_iff, List.any_eq_true]
  constructor
  · rintro ⟨j, -, hj⟩
    rw [placeField_getLsbD] at hj
    simp only [Bool.and_eq_true, decide_eq_true_eq] at hj
    have hlt : 11 * i.val + 8 + b - (11 * j.val + 8) < 11 := BitVec.lt_of_getLsbD hj.2
    have : j = i := by ext; omega
    subst this
    simpa using hj.2
  · intro h
    refine ⟨i, List.mem_finRange i, ?_⟩
    rw [placeField_getLsbD]
    simp only [Nat.add_sub_cancel_left, Bool.and_eq_true, decide_eq_true_eq]
    exact ⟨⟨by omega, by omega⟩, h⟩

/-- The analog fields reach no bit below 8 and none from 184 up (R69). -/
theorem chansPayload_getLsbD_outside (r : Record) (k : Nat) (hk : k < 8 ∨ 184 ≤ k) :
    (chansPayload r).getLsbD k = false := by
  rw [chansPayload, foldr_or_getLsbD, List.any_eq_false]
  intro j _ hj
  rw [placeField_getLsbD] at hj
  simp only [Bool.and_eq_true, decide_eq_true_eq] at hj
  have hlt : k - (11 * j.val + 8) < 11 := BitVec.lt_of_getLsbD hj.2
  omega

/-- A one-bit field at bit `lo`. -/
theorem placeField_ofBool_getLsbD (b : Bool) (lo k : Nat) :
    (placeField (BitVec.ofBool b) lo).getLsbD k = (decide (k < 192) && decide (k = lo) && b) := by
  rw [placeField_getLsbD]
  by_cases h : k = lo
  · subst h; cases b <;> simp
  · by_cases h2 : lo ≤ k
    · have : k - lo ≠ 0 := by omega
      cases b <;> simp [h, BitVec.ofBool, this]
    · simp [h, h2]

/-- The predicates of a record, bit by bit (R67, R69). -/
theorem flagsPayload_getLsbD (r : Record) (k : Nat) :
    (flagsPayload r).getLsbD k =
      ((decide (k = 184) && r.digitalChannel1) || (decide (k = 185) && r.digitalChannel2)
        || (decide (k = 186) && r.signalLoss) || (decide (k = 187) && r.failsafeActive)) := by
  simp only [flagsPayload, BitVec.getLsbD_or, placeField_ofBool_getLsbD]
  by_cases h : k < 192
  · simp [h]
  · have h0 : k ≠ 184 := by omega
    have h1 : k ≠ 185 := by omega
    have h2 : k ≠ 186 := by omega
    have h3 : k ≠ 187 := by omega
    simp [h0, h1, h2, h3]

/-- No payload reaches the low byte (R69: the payload is `REQ[191:8]`). -/
theorem payload_getLsbD_low (i : Instr) (k : Nat) (hk : k < 8) : (payload i).getLsbD k = false := by
  have hrec : ∀ r : Record, (recordPayload r).getLsbD k = false := by
    intro r
    rw [recordPayload, BitVec.getLsbD_or, chansPayload_getLsbD_outside r k (Or.inl hk), flagsPayload_getLsbD]
    have h0 : k ≠ 184 := by omega
    have h1 : k ≠ 185 := by omega
    have h2 : k ≠ 186 := by omega
    have h3 : k ≠ 187 := by omega
    simp [h0, h1, h2, h3]
  have hplace : ∀ {n : Nat} (v : BitVec n), (placeField v 8).getLsbD k = false := by
    intro n v
    rw [placeField_getLsbD]
    simp only [show ¬ 8 ≤ k by omega, decide_false, Bool.and_false, Bool.false_and]
  cases i with
  | initStd => simp [payload]
  | initExt => simp [payload]
  | decStd r => rw [payload]; exact hrec r
  | decExtLo r => rw [payload]; exact hrec r
  | decExtHi r => rw [payload]; exact hrec r
  | read idx => rw [payload]; exact hplace idx
  | cdecFull val => rw [payload]; exact hplace val
  | cdecSafe val => rw [payload]; exact hplace val
  | cenc val => rw [payload]; exact hplace val

/-- The low byte of an encoded operation is its opcode byte. -/
theorem encode_lowByte (i : Instr) : (encode i).extractLsb' 0 8 = opcodeByte i := by
  ext k hk
  have hlow : (payload i).getLsbD k = false := payload_getLsbD_low i k hk
  have h192 : k < 192 := by omega
  simp [encode, placeField_getLsbD, hlow, hk, h192, ← BitVec.getLsbD_eq_getElem]

end Sys2Proof
end

