-- ==== Sys2Proof/Laws/Ops.lean ====
section
/-! SUPPORT. What each shared operation can do, said once. -/

namespace Sys2Proof.Machine

/-! Slot writes. -/

/-- A run of writes from `base` puts `vs[j - base]` into the slots it covers and leaves the others alone. -/
theorem writeRun_getElem (vs : List Raw) (ch : Slots) (base j : Nat) (hj : j < 32) :
    (writeRun ch base vs)[j] =
      if h : base ≤ j ∧ j < base + vs.length then vs[j - base]'(by omega) else ch[j] := by
  induction vs generalizing ch base with
  | nil => simp [writeRun]
  | cons v vs ih =>
    rw [writeRun, ih]
    by_cases hb : base = j
    · subst hb
      simp
    · by_cases hc : base + 1 ≤ j ∧ j < base + 1 + vs.length
      · have h : base ≤ j ∧ j < base + (v :: vs).length := by simp only [List.length_cons]; omega
        have e : j - base = (j - (base + 1)) + 1 := by omega
        rw [dif_pos hc, dif_pos h]
        simp only [e, List.getElem_cons_succ]
      · have h : ¬ (base ≤ j ∧ j < base + (v :: vs).length) := by simp only [List.length_cons]; omega
        rw [dif_neg hc, dif_neg h, Vector.getElem_setIfInBounds_ne hj hb]

/-- The sixteen analog writes. -/
theorem writeAnalog_getElem (r : Record) (base : Nat) (ch : Slots) (j : Nat) (hj : j < 32) :
    (writeAnalog r base ch)[j] =
      if h : base ≤ j ∧ j < base + 16 then r.chans[j - base]'(by omega) else ch[j] := by
  simp [writeAnalog, writeRun_getElem]

/-- The two digital writes. -/
theorem writeDigital_getElem (r : Record) (base : Nat) (ch : Slots) (j : Nat) (hj : j < 32) :
    (writeDigital r base ch)[j] =
      if j = base then dig r.digitalChannel1 else if j = base + 1 then dig r.digitalChannel2 else ch[j] := by
  rw [writeDigital, writeRun_getElem]
  by_cases h0 : j = base
  · subst h0; simp
  · by_cases h1 : j = base + 1
    · subst h1; simp
    · rw [dif_neg (by simp only [List.length_cons, List.length_nil]; omega), if_neg h0, if_neg h1]

/-! Responses. -/

/-- A response always completes, and only answers. -/
theorem respond_next {v : Response} {s t : State} : respond v s = .next t ↔ t = s.answered v := by
  simp [respond, eq_comm]

/-! Preconditions. -/

/-- What comes after the session check, when something does. -/
theorem requireBound_next {s t : State} {body : State → Result} :
    requireBound s body = .next t ↔ s.bound = true ∧ body s = .next t := by
  unfold requireBound
  split <;> simp_all

/-- What comes after the mode check, when something does. -/
theorem requireMode_next {m : Mode} {s t : State} {body : State → Result} :
    requireMode m s body = .next t ↔ s.bound = true ∧ s.mode = m ∧ body s = .next t := by
  unfold requireMode
  rw [requireBound_next]
  split <;> simp_all

/-- Without a session the check refuses. -/
theorem requireBound_notBound {s : State} {body : State → Result} (h : s.bound = false) :
    requireBound s body = .refused .notBound := by simp [requireBound, h]

/-- In a session the check passes. -/
theorem requireBound_bound {s : State} {body : State → Result} (h : s.bound = true) :
    requireBound s body = body s := by simp [requireBound, h]

/-- Without a session the mode check refuses with `NotBound`. -/
theorem requireMode_notBound {m : Mode} {s : State} {body : State → Result} (h : s.bound = false) :
    requireMode m s body = .refused .notBound := requireBound_notBound h

/-- In a session of another mode it refuses with `ModeMismatch`. -/
theorem requireMode_mismatch {m : Mode} {s : State} {body : State → Result} (h : s.bound = true) (hm : s.mode ≠ m) :
    requireMode m s body = .refused .modeMismatch := by simp [requireMode, requireBound, h, hm]

/-- In a session of that mode it passes. -/
theorem requireMode_pass {m : Mode} {s : State} {body : State → Result} (h : s.bound = true) (hm : s.mode = m) :
    requireMode m s body = body s := by simp [requireMode, requireBound, h, hm]

/-! Indices. -/

/-- The two outcomes of the session check. -/
theorem requireBound_cases (s : State) (body : State → Result) :
    requireBound s body = .refused .notBound ∨ requireBound s body = body s := by
  cases hb : s.bound with
  | false => exact .inl (requireBound_notBound hb)
  | true => exact .inr (requireBound_bound hb)

/-- The three outcomes of the decode preconditions (R92). -/
theorem requireMode_cases (m : Mode) (s : State) (body : State → Result) :
    requireMode m s body = .refused .notBound ∨ requireMode m s body = .refused .modeMismatch ∨
      requireMode m s body = body s := by
  cases hb : s.bound with
  | false => exact .inl (requireMode_notBound hb)
  | true =>
    by_cases hm : s.mode = m
    · exact .inr (.inr (requireMode_pass hb hm))
    · exact .inr (.inl (requireMode_mismatch hb hm))

/-- A visible index names the slot of that number. -/
theorem resolveIndex_some {m : Mode} {idx : IndexOperand} {i : Fin 32} :
    resolveIndex m idx = some i ↔ idx.toNat < visibleSlots m ∧ i.val = idx.toNat := by
  unfold resolveIndex
  split <;> rename_i h
  · simp only [Option.some.injEq, h, true_and]
    constructor
    · intro e; rw [← e]
    · intro e; ext; exact e.symm
  · simp [h]

/-- An index that is not visible names none. -/
theorem resolveIndex_none {m : Mode} {idx : IndexOperand} :
    resolveIndex m idx = none ↔ visibleSlots m ≤ idx.toNat := by
  unfold resolveIndex
  split <;> simp <;> omega

/-! The host's side. -/

theorem takeEvent_nil {s : State} (h : s.host = []) : takeEvent s = none := by simp [takeEvent, h]

theorem takeEvent_cons {s : State} {e : HostEvent} {es : List HostEvent} (h : s.host = e :: es) :
    takeEvent s = some (e, { s with host := es }) := by simp [takeEvent, h]

end Sys2Proof.Machine
end

