-- ==== Sys2Proof/Laws/Exec.lean ====
section
/-! SUPPORT. When each operation completes and the state it then leaves, said once per operation. -/

namespace Sys2Proof.Machine

variable {s t : State}

theorem execInitStd_next : execInitStd s = .next t ↔ t = (startSession .std s).answered 0#16 := respond_next

theorem execInitExt_next : execInitExt s = .next t ↔ t = (startSession .ext s).answered 0#16 := respond_next

theorem execDecStd_next {r : Record} :
    execDecStd r s = .next t ↔ s.bound = true ∧ s.mode = .std ∧
      t = (s.withSlots (writeDigital r 16 (writeAnalog r 0 s.ch))).answered (statusResponse r) := by
  rw [execDecStd, requireMode_next, respond_next]

theorem execDecExtLo_next {r : Record} :
    execDecExtLo r s = .next t ↔ s.bound = true ∧ s.mode = .ext ∧
      t = (s.withSlots (writeDigital r 16 (writeAnalog r 0 s.ch))).answered (statusResponse r) := by
  rw [execDecExtLo, requireMode_next, respond_next]
  rfl

theorem execDecExtHi_next {r : Record} :
    execDecExtHi r s = .next t ↔ s.bound = true ∧ s.mode = .ext ∧
      t = (s.withSlots (writeAnalog r 16 s.ch)).answered (statusResponse r) := by
  rw [execDecExtHi, requireMode_next, respond_next]
  rfl

theorem execRead_next {idx : IndexOperand} :
    execRead idx s = .next t ↔ s.bound = true ∧
      ∃ i : Fin 32, resolveIndex s.mode idx = some i ∧ t = s.answered (zext16 (decPolicy .full (rawOperand (s.slot i)))) := by
  rw [execRead, requireBound_next]
  refine and_congr_right fun _ => ?_
  cases resolveIndex s.mode idx with
  | none => simp
  | some i => simp [respond_next]

theorem execCdecFull_next {val : ValueOperand} :
    execCdecFull val s = .next t ↔ t = s.answered (zext16 (decPolicy .full (valueOperand val))) := respond_next

theorem execCdecSafe_next {val : ValueOperand} :
    execCdecSafe val s = .next t ↔ t = s.answered (zext16 (decPolicy .safe (valueOperand val))) := respond_next

theorem execCenc_next {val : ValueOperand} :
    execCenc val s = .next t ↔ t = s.answered (zext16 (enc (valueOperand val))) := respond_next

/-- Every outcome of an operation: done with one response and the host's events untouched, or one of the three refusals that
depend on the state (R92, R135). -/
theorem exec_cases (i : Instr) (s : State) :
    (∃ t v, exec i s = .next t ∧ t.responses = s.responses ++ [v] ∧ t.host = s.host) ∨
    exec i s = .refused .notBound ∨ exec i s = .refused .modeMismatch ∨ exec i s = .refused .indexOutOfRange := by
  cases i with
  | initStd => exact .inl ⟨_, _, rfl, rfl, rfl⟩
  | initExt => exact .inl ⟨_, _, rfl, rfl, rfl⟩
  | decStd r =>
    rw [exec, execDecStd]
    rcases requireMode_cases .std s _ with h | h | h <;> rw [h]
    exacts [.inr (.inl rfl), .inr (.inr (.inl rfl)), .inl ⟨_, _, rfl, rfl, rfl⟩]
  | decExtLo r =>
    rw [exec, execDecExtLo]
    rcases requireMode_cases .ext s _ with h | h | h <;> rw [h]
    exacts [.inr (.inl rfl), .inr (.inr (.inl rfl)), .inl ⟨_, _, rfl, rfl, rfl⟩]
  | decExtHi r =>
    rw [exec, execDecExtHi]
    rcases requireMode_cases .ext s _ with h | h | h <;> rw [h]
    exacts [.inr (.inl rfl), .inr (.inr (.inl rfl)), .inl ⟨_, _, rfl, rfl, rfl⟩]
  | read idx =>
    rw [exec, execRead]
    rcases requireBound_cases s _ with h | h <;> rw [h]
    · exact .inr (.inl rfl)
    · cases resolveIndex s.mode idx with
      | some j => exact .inl ⟨_, _, rfl, rfl, rfl⟩
      | none => exact .inr (.inr (.inr rfl))
  | cdecFull val => exact .inl ⟨_, _, rfl, rfl, rfl⟩
  | cdecSafe val => exact .inl ⟨_, _, rfl, rfl, rfl⟩
  | cenc val => exact .inl ⟨_, _, rfl, rfl, rfl⟩

end Sys2Proof.Machine
end

