-- ==== Sys2Proof/Laws/PerInstr.lean ====
section
/-! SUPPORT. Facts about every operation as syntax, one lemma per constructor of `Instr`. -/

/-- The low byte of the encoded word is the operation's row of the opcode map (30_encoding.md R72). -/
def Sys2Proof.Laws.LowByte.Statement (i : Sys2Proof.Instr) : Prop :=
  (Sys2Proof.encode i).extractLsb' 0 8 = Sys2Proof.opcodeByte i

namespace Sys2Proof.Laws.LowByte

theorem initStd : Statement .initStd := encode_lowByte _

theorem initExt : Statement .initExt := encode_lowByte _

theorem decStd (r : Record) : Statement (.decStd r) := encode_lowByte _

theorem decExtLo (r : Record) : Statement (.decExtLo r) := encode_lowByte _

theorem decExtHi (r : Record) : Statement (.decExtHi r) := encode_lowByte _

theorem read (idx : IndexOperand) : Statement (.read idx) := encode_lowByte _

theorem cdecFull (val : ValueOperand) : Statement (.cdecFull val) := encode_lowByte _

theorem cdecSafe (val : ValueOperand) : Statement (.cdecSafe val) := encode_lowByte _

theorem cenc (val : ValueOperand) : Statement (.cenc val) := encode_lowByte _

end Sys2Proof.Laws.LowByte
end

