-- ==== Sys2Proof/Laws/Step.lean ====
section
/-! SUPPORT. What one step can do, and runs. -/

namespace Sys2Proof.Machine

variable {s t : State}

/-- A step that answers a next state was idle, a platform reset, or one decoded operation performed. -/
theorem step_next_cases (h : step s = .next t) :
    (s.host = [] ∧ t = s) ∨
    (∃ rest, s.host = .reset :: rest ∧ t = platformReset { s with host := rest }) ∨
    (∃ w rest i, s.host = .request w :: rest ∧ decode w = .instr i ∧ exec i { s with host := rest } = .next t) := by
  cases hs : s.host with
  | nil =>
    left
    rw [step, takeEvent_nil hs] at h
    simp only [idle, Host.Outcome.next.injEq] at h
    exact ⟨rfl, h.symm⟩
  | cons e rest =>
    right
    rw [step, takeEvent_cons hs] at h
    cases e with
    | reset =>
      left
      simp only [Host.Outcome.next.injEq] at h
      exact ⟨rest, rfl, h.symm⟩
    | request w =>
      right
      cases hd : decode w with
      | rejected r => simp [hd] at h
      | instr i =>
        simp only [hd] at h
        exact ⟨w, rest, i, rfl, hd, h⟩

/-- The step of a request that carries an operation. -/
theorem step_of_instr {w : Request} {rest : List HostEvent} {i : Instr}
    (hs : s.host = .request w :: rest) (hd : decode w = .instr i) : step s = exec i { s with host := rest } := by
  simp [step, takeEvent_cons hs, hd]

/-- The step of a request the decoder turns away. -/
theorem step_of_rejected {w : Request} {rest : List HostEvent} {r : DecodeRefusal}
    (hs : s.host = .request w :: rest) (hd : decode w = .rejected r) : step s = .refused (decodeRefusal r) := by
  simp [step, takeEvent_cons hs, hd]

/-- The runs of Safety.lean are the host's runs of this machine. -/
theorem runSteps_eq_core_run (n : Nat) (s : State) : runSteps n s = Sys2Proof.core.run n s := by
  induction n generalizing s with
  | zero => rfl
  | succ n ih =>
    simp only [runSteps, Host.Core.run, Sys2Proof.core]
    cases step s with
    | next s' => exact ih s'
    | fault r => rfl
    | refused r => rfl

/-- The first step of a run that completes, and the rest of it. -/
theorem runSteps_succ_next {n : Nat} (h : runSteps (n + 1) s = .next t) :
    ∃ u, step s = .next u ∧ runSteps n u = .next t := by
  rw [runSteps] at h
  cases hu : step s with
  | next u => exact ⟨u, rfl, by simpa [hu] using h⟩
  | fault r => exact absurd h (by simp [hu])
  | refused r => exact absurd h (by simp [hu])

end Sys2Proof.Machine
end

