-- ==== Sys2Proof/Tests/Slice0.lean ====
section
/-! SUPPORT. Tests of single steps and of words written out from the spec (sources in the comments), smoke tests of the
well-formedness checks, and witnesses of the statements' hypotheses. -/

namespace Sys2Proof.Tests

open Sys2Proof.Machine

/-! ## Small states and readings -/

/-- The state after `INIT` in mode `m` from reset. -/
def session (m : Mode) : State := startSession m State.reset

/-- The state that presents one word and nothing else. -/
def presenting (s : State) (w : Request) : State := { s with host := [.request w] }

/-- The last response of a step that completes. -/
def answer : Result → Option Response
  | .next s => s.responses.getLast?
  | .fault _ => none
  | .refused _ => none

/-- A slot after a step that completes. -/
def slotAfter (j : Fin 32) : Result → Option Raw
  | .next s => some (s.slot j)
  | .fault _ => none
  | .refused _ => none

/-- Why a step is refused. -/
def refusal : Result → Option Refusal
  | .next _ => none
  | .fault _ => none
  | .refused r => some r

/-- The record of 95_test_vectors.md E-1. -/
def recordE1 : Record where
  chans := #v[0, 173, 500, 991, 992, 993, 1024, 1500, 1811, 1812, 1813, 2000, 2046, 2047, 1, 172]
  digitalChannel1 := true
  digitalChannel2 := false
  signalLoss := false
  failsafeActive := false

/-- Sixteen equal channels. -/
def flat (v : Raw) (dg1 dg2 loss fs : Bool) : Record := ⟨Vector.replicate 16 v, dg1, dg2, loss, fs⟩

/-! ## Well-formedness refuses an ill-formed term, one per check -/

theorem test_wf_reserved_bits : Request.reservedBitsClear 0x83#192 = false := by decide

theorem test_wf_opcode : Request.opcodeAssigned 0x06#192 = false := by decide

theorem test_wf_modifier : Request.modifierAllowed 0x0B#192 = false := by decide

theorem test_wf_word : Request.wellFormed 0x0A#192 = true := by decide

theorem test_wf_channel_count : Source.wellFormed (.decStd (List.replicate 15 992) []) = false := by decide

theorem test_wf_channel_range : Source.wellFormed (.decExtHi (2048 :: List.replicate 15 992) []) = false := by decide

theorem test_wf_index : Source.wellFormed (.read 256) = false := by decide

theorem test_wf_value : Source.wellFormed (.cenc 65536) = false := by decide

theorem test_wf_source : Source.wellFormed (.decExtLo (List.replicate 16 2047) [.fs]) = true := by decide

/-! ## Decoding of words written out from the spec (95_test_vectors.md E-1 to E-4, R82) -/

theorem test_decode_init_std :
    decode 0x000000000000000000000000000000000000000000000000#192 = .instr .initStd := by decide

theorem test_decode_init_ext_ignores_payload :
    decode 0x000000000000000000012340000000000000000000000008#192 = .instr .initExt := by decide

theorem test_decode_decstd_e1 :
    decode 0x01158007FFFFEFA1C578A713BB9001F0BE07BE7D05680001#192 = .instr (.decStd recordE1) := by decide

theorem test_decode_decstd_ignores_high_flags :
    decode 0xF1158007FFFFEFA1C578A713BB9001F0BE07BE7D05680001#192 = .instr (.decStd recordE1) := by decide

theorem test_decode_decext_lo :
    decode 0x037D0FA1F43E87D0FA1F43E87D0FA1F43E87D0FA1F43E802#192 =
      .instr (.decExtLo (flat 1000 true true false false)) := by decide

theorem test_decode_decext_hi :
    decode 0x043E87D0FA1F43E87D0FA1F43E87D0FA1F43E87D0C812C0A#192 =
      .instr (.decExtHi ⟨#v[300, 400, 500, 500, 500, 500, 500, 500, 500, 500, 500, 500, 500, 500, 500, 500],
        false, false, true, false⟩) := by decide

theorem test_decode_failsafe_flag :
    decode 0x08E11C2384708E11C2384708E11C2384708E11C238470801#192 =
      .instr (.decStd (flat 1800 false false false true)) := by decide

theorem test_decode_read_ignores_payload :
    decode 0x8000000000000000000000000000000000000000ABCD0503#192 = .instr (.read 5) := by decide

theorem test_decode_cdec_full :
    decode 0x00000000000000000000000000000000000000000003E004#192 = .instr (.cdecFull 992) := by decide

theorem test_decode_cdec_safe :
    decode 0x00000000000000000000000000000000000000000000AD0C#192 = .instr (.cdecSafe 173) := by decide

theorem test_decode_cenc :
    decode 0x00000000000000000000000000000000000000000005DC05#192 = .instr (.cenc 1500) := by decide

theorem test_decode_reserved_bits_before_opcode : decode 0x16#192 = .rejected .reservedBits := by decide

theorem test_decode_reserved_opcode : decode 0x0E#192 = .rejected .reservedOpcode := by decide

theorem test_decode_reserved_modifier : decode 0x0D#192 = .rejected .reservedModifier := by decide

theorem test_encode_decstd_e1 :
    encode (.decStd recordE1) = 0x01158007FFFFEFA1C578A713BB9001F0BE07BE7D05680001#192 := by decide

theorem test_encode_cenc :
    encode (.cenc 1500) = 0x00000000000000000000000000000000000000000005DC05#192 := by decide

/-- The byte serialisation of E-1. -/
theorem test_bytes_e1 :
    bytesOfRequest 0x01158007FFFFEFA1C578A713BB9001F0BE07BE7D05680001#192 =
      [0x01, 0x00, 0x68, 0x05, 0x7D, 0xBE, 0x07, 0xBE, 0xF0, 0x01, 0x90, 0xBB,
       0x13, 0xA7, 0x78, 0xC5, 0xA1, 0xEF, 0xFF, 0xFF, 0x07, 0x80, 0x15, 0x01] := by decide

theorem test_bytes_truncated : decodeBytes (List.replicate 23 0) = none := by decide

theorem test_table_word : decodeTableWord 8 0x0C = some (.cdecSafe 0) := by decide

/-! ## Textual syntax (R80, R82, R23) -/

theorem test_text_read : assembleLine "READ 16".toList = some (some 0x1003#192) := by decide

theorem test_text_frame :
    assembleLine "DECSTD 992*16, [DG1]".toList =
      some (some 0x017C0F81F03E07C0F81F03E07C0F81F03E07C0F81F03E001#192) := by decide

theorem test_text_flags :
    assembleLine "DECSTD 1000*16, [FS|LOSS|DG2]".toList =
      some (some 0x0E7D0FA1F43E87D0FA1F43E87D0FA1F43E87D0FA1F43E801#192) := by decide

theorem test_text_hex_and_comment : assembleLine "CENC 0x5DC ; -> 992".toList = some (some 0x5DC05#192) := by decide

theorem test_text_alias_h15 : parseLine "READ H15".toList = some (some (.read 31)) := by decide

theorem test_text_alias_dg2 : parseLine "READ DG2".toList = some (some (.read 17)) := by decide

theorem test_text_alias_out_of_range : parseLine "READ A16".toList = none := by decide

theorem test_text_comment_only : assembleLine " ; two halves".toList = some none := by decide

theorem test_text_value_too_large : assembleLine "CDEC.FULL 65536".toList = none := by decide

/-! ## Constants (R9, R10, R132) -/

theorem test_raw_center : Config.rawCenter = 992 := by decide

theorem test_visible_slots : (visibleSlots .std, visibleSlots .ext, Config.nPhys) = (18, 32, Config.nExt) := by decide

theorem test_full_range :
    dec Config.rawMin 0 2047 = Config.normFullMin ∧ dec Config.rawMax 0 2047 = Config.normFullMax := by decide

theorem test_safe_range :
    dec Config.digMin 173 1812 = Config.normSafeMin ∧ dec Config.digMax 173 1812 = Config.normSafeMax := by decide

/-! ## One step of each operation -/

/-- V-A1. -/
theorem test_init_std_slot : slotAfter 31 (step (presenting State.reset 0x00)) = some 992 := by decide

/-- E-2. -/
theorem test_init_ext_answer : answer (step (presenting State.reset 0x08)) = some 0 := by decide

/-- V-D2. -/
theorem test_decstd_digital : slotAfter 16 (exec (.decStd (flat 992 true false false false)) (session .std)) = some 1812 := by
  decide

/-- P1: chan15 of E-1 is stored verbatim. -/
theorem test_decstd_verbatim : slotAfter 15 (exec (.decStd recordE1) (session .std)) = some 172 := by decide

/-- T-ST, P3 step 7: both conditions give 3. -/
theorem test_decstd_status : answer (exec (.decStd (flat 1000 false true true true)) (session .std)) = some 3 := by decide

/-- The example of R95. -/
theorem test_decext_lo_digital : slotAfter 17 (exec (.decExtLo (flat 1000 false true false false)) (session .ext)) = some 1812 := by
  decide

/-- Refusals of the decoder family. -/
theorem test_decext_lo_mismatch :
    refusal (exec (.decExtLo (flat 992 false false false false)) (session .std)) = some .modeMismatch := by decide

/-- V-X3: the digital flags of a high half are ignored. -/
theorem test_decext_hi_shared : slotAfter 16 (exec (.decExtHi (flat 2047 true true false false)) (session .ext)) = some 2047 := by
  decide

/-- V-X2: the low half is left as it was. -/
theorem test_decext_hi_low_half : slotAfter 15 (exec (.decExtHi (flat 500 false false true false)) (session .ext)) = some 992 := by
  decide

/-- P1 step 11. -/
theorem test_read_full : answer (exec (.read 13) { session .std with ch := Vector.replicate 32 2047 }) = some 2159 := by decide

/-- V-A7. -/
theorem test_read_hidden : refusal (exec (.read 18) (session .std)) = some .indexOutOfRange := by decide

/-- P4 step 13, performed on the machine just out of reset. -/
theorem test_cdec_full_clamps : answer (exec (.cdecFull 3000) State.reset) = some 2159 := by decide

/-- R113's example. -/
theorem test_cdec_safe_clamps : answer (exec (.cdecSafe 100) State.reset) = some 988 := by decide

/-- R118: the addend makes a ceiling. -/
theorem test_cenc_ceiling : answer (exec (.cenc 989) State.reset) = some 175 := by decide

/-- Part 2.3: the most negative numerator. -/
theorem test_cenc_negative : answer (exec (.cenc 0) State.reset) = some 173 := by decide

/-- Short refusing runs. -/
theorem test_step_not_bound : refusal (step (presenting State.reset 0x03)) = some .notBound := by decide

theorem test_step_reserved_bits : refusal (step (presenting (session .std) 0x83)) = some .reservedBits := by decide

/-- P4: a table word is performed as the first request after reset. -/
theorem test_step_table_word : answer (step (State.reset.withFetchWord 192 0x5DC05)) = some 992 := by decide

/-! ## Witnesses: the hypotheses of each statement are met together -/

theorem witness_words_in_order :
    (presenting State.reset 0x10).host = .request 0x10 :: [] ∧
    (0x10#192).extractLsb' 4 4 ≠ 0#4 ∧ (0xF0#192).extractLsb' 4 4 ≠ 0#4 ∧
    ((0x06#192).extractLsb' 4 4 = 0#4 ∧ (0x06#192).extractLsb' 0 3 = 6#3) ∧
    ((0x0F#192).extractLsb' 4 4 = 0#4 ∧ (0x0F#192).extractLsb' 0 3 = 7#3) ∧
    ((0x09#192).extractLsb' 4 4 = 0#4 ∧ (0x09#192).getLsbD 3 = true ∧ (0x09#192).extractLsb' 0 3 = 1#3) ∧
    ((0x0D#192).extractLsb' 4 4 = 0#4 ∧ (0x0D#192).getLsbD 3 = true ∧ (0x0D#192).extractLsb' 0 3 = 5#3) ∧
    ((0x0C#192).extractLsb' 4 4 = 0#4 ∧ (0x0C#192).extractLsb' 0 3 ≠ 6#3 ∧ (0x0C#192).extractLsb' 0 3 ≠ 7#3 ∧
      ¬((0x0C#192).getLsbD 3 = true ∧ ((0x0C#192).extractLsb' 0 3 = 1#3 ∨ (0x0C#192).extractLsb' 0 3 = 3#3 ∨
        (0x0C#192).extractLsb' 0 3 = 5#3))) := by decide

theorem witness_ignored_bits :
    decode 0x8000000000000000000000000000000000000000ABCD0503#192 = .instr (.read 5) ∧
    (0x8000000000000000000000000000000000000000ABCD0503#192).setWidth (namedBits (.read 5)) =
      (0x0503#192).setWidth (namedBits (.read 5)) := by decide

theorem witness_ignored_flags :
    decode 0xF1158007FFFFEFA1C578A713BB9001F0BE07BE7D05680001#192 = .instr (.decStd recordE1) ∧
    (0xF1158007FFFFEFA1C578A713BB9001F0BE07BE7D05680001#192).setWidth (namedBits (.decStd recordE1)) =
      (0x01158007FFFFEFA1C578A713BB9001F0BE07BE7D05680001#192).setWidth (namedBits (.decStd recordE1)) := by decide

theorem witness_encode_of_decode : decode 0xABCD0503#192 = .instr (.read 5) := by decide

theorem witness_first_event_idle : State.reset.host = [] := rfl

theorem witness_first_event_reset : ({ session .ext with host := [.reset] } : State).host = .reset :: [] := rfl

theorem witness_first_event_request :
    (presenting State.reset 0x08).host = .request 0x08 :: [] ∧ decode 0x08 = .instr .initExt := by decide

/-- One request that is done, and one refused for each reason of R14. -/
theorem witness_request_outcomes :
    (presenting State.reset 0x08).host = .request 0x08 :: [] ∧ answer (step (presenting State.reset 0x08)) = some 0 ∧
    refusal (step (presenting State.reset 0x1103)) = some .notBound ∧
    refusal (step (presenting (session .std) 0x0A)) = some .modeMismatch ∧
    refusal (step (presenting (session .ext) 0x2003)) = some .indexOutOfRange ∧
    refusal (step (presenting (session .std) 0x06)) = some .reservedOpcode ∧
    refusal (step (presenting (session .std) 0x10)) = some .reservedBits ∧
    refusal (step (presenting (session .std) 0x0B)) = some .reservedModifier := by decide

/-- The last visible index of each mode. -/
theorem witness_visible_index :
    ((session .std).bound = true ∧ (17 : Fin 32).val = (17#8).toNat ∧ (17 : Fin 32).val < visibleSlots (session .std).mode) ∧
    ((session .ext).bound = true ∧ (31 : Fin 32).val = (31#8).toNat ∧
      (31 : Fin 32).val < visibleSlots (session .ext).mode) := by decide

theorem witness_table_word : decodeTableWord 192 0x5DC05 = some (.cenc 1500) := by decide

theorem witness_in_contract :
    inContract (presenting (session .std) 0x1103) = true ∧ inContract (presenting (session .std) 0x1203) = false := by decide

theorem witness_low_bytes :
    (0x12340000#192).extractLsb' 0 8 = 0x00#8 ∧ (0x12340008#192).extractLsb' 0 8 = 0x08#8 ∧
    (0xFF01#192).extractLsb' 0 8 = 0x01#8 ∧ (0xFF02#192).extractLsb' 0 8 = 0x02#8 ∧ (0xFF0A#192).extractLsb' 0 8 = 0x0A#8 ∧
    (0x1003#192).extractLsb' 0 8 = 0x03#8 ∧ (0x3E004#192).extractLsb' 0 8 = 0x04#8 ∧ (0xAD0C#192).extractLsb' 0 8 = 0x0C#8 ∧
    (0x5DC05#192).extractLsb' 0 8 = 0x05#8 := by decide

theorem witness_indices :
    (17#8).toNat < 18 ∧ 18 ≤ (18#8).toNat ∧ (31#8).toNat < 32 ∧ 32 ≤ (32#8).toNat ∧ 32 ≤ (255#8).toNat := by decide

theorem witness_read_clauses :
    State.reset.bound = false ∧
    ((session .std).bound = true ∧ (session .std).mode = .std ∧ 18 ≤ (18#8).toNat) ∧
    ((session .ext).bound = true ∧ (session .ext).mode = .ext ∧ 32 ≤ (32#8).toNat) ∧
    ((17 : Fin 32).val = (17#8).toNat ∧ (session .std).bound = true ∧ ((session .std).mode = .std → (17 : Fin 32).val < 18)) ∧
    ((31 : Fin 32).val = (31#8).toNat ∧ (session .ext).bound = true ∧
      ((session .ext).mode = .std → (31 : Fin 32).val < 18)) := by decide

theorem witness_decode_preconditions :
    State.reset.bound = false ∧
    ((session .ext).bound = true ∧ (session .ext).mode ≠ .std) ∧ ((session .std).bound = true ∧ (session .std).mode = .std) ∧
    ((session .std).bound = true ∧ (session .std).mode ≠ .ext) ∧ ((session .ext).bound = true ∧ (session .ext).mode = .ext) := by
  decide

theorem witness_decstd_completes : ∃ t, exec (.decStd recordE1) (session .std) = .next t := ⟨_, rfl⟩

theorem witness_decext_lo_completes : ∃ t, exec (.decExtLo recordE1) (session .ext) = .next t := ⟨_, rfl⟩

theorem witness_decext_hi_completes : ∃ t, exec (.decExtHi recordE1) (session .ext) = .next t := ⟨_, rfl⟩

/-- The four cases of the status truth table. -/
theorem witness_status_cases :
    (flat 992 false false true true).failsafeActive = true ∧ (flat 992 false false false true).failsafeActive = true ∧
    ((flat 992 false false true false).failsafeActive = false ∧ (flat 992 false false true false).signalLoss = true) ∧
    (recordE1.failsafeActive = false ∧ recordE1.signalLoss = false) := by decide

theorem witness_extended_session : ∃ s, exec .initExt State.reset = .next s := ⟨_, rfl⟩

theorem witness_low_halves : ∀ p ∈ [(Half.low, recordE1), (Half.low, flat 992 true true true true)], p.1 = .low := by decide

theorem witness_codec_ranges :
    (173#16).toNat ≤ 173 ∧ 1812 ≤ (1812#16).toNat ∧ 173 ≤ (1812#16).toNat ∧ (1812#16).toNat ≤ 1812 ∧ (988#16).toNat ≤ 988 ∧
    2012 ≤ (2012#16).toNat ∧ (989#16).toNat = 989 ∧ (2011#16).toNat = 2011 := by decide

theorem witness_read_keeps_other_slots :
    (∃ t, exec (.read 5) (session .std) = .next t) ∧
    ∀ idx (j : Fin 32), Instr.read 5 = .read idx → j.val = idx.toNat →
      ((session .std).ch.set 6 0)[j] = (session .std).slot j := by
  refine ⟨⟨_, rfl⟩, ?_⟩
  rintro idx j h hj
  cases h
  obtain rfl : j = 5 := by ext; exact hj
  decide

theorem witness_reader_operation : instrRole (.read 17) ≠ .writer ∧ ∃ t, exec (.read 17) (session .std) = .next t :=
  ⟨by decide, _, rfl⟩

theorem witness_either_operation : instrRole (.cenc 0) = .either ∧ ∃ t, exec (.cenc 0) State.reset = .next t :=
  ⟨by decide, _, rfl⟩

theorem witness_before_init : State.reset.bound = false := rfl

/-- A standard session meets the invariant, and a step from it completes. -/
theorem witness_session_invariant :
    SessionInvariant (presenting (session .std) 0x01) ∧ ∃ t, step (presenting (session .std) 0x01) = .next t := by
  have hs : ∀ j, (presenting (session .std) 0x01).slot j = 992#11 := by
    intro j
    simp [presenting, session, State.slot_def]
  exact ⟨⟨fun _ => rfl, fun _ _ j _ => hs j, fun _ _ j _ => Or.inl (hs j)⟩, _, rfl⟩

/-- A run of an `INIT.EXT` and a high half completes in an extended session; slot 31 was last written by the high half. -/
theorem witness_run :
    (∃ t, runSteps 2 { State.reset with host := [0x08, 0x0A].map .request } = .next t ∧ t.bound = true ∧
      (31 : Fin 32).val < visibleSlots t.mode) ∧
    lastWrite 31 [0x08, 0x0A] = some 0 := ⟨⟨_, rfl, rfl, by decide⟩, by decide⟩

/-- A reader's `READ 31` between the writer's `INIT.EXT` and its low half. -/
theorem witness_interleaving :
    (∀ w ∈ [0x1F03#192], readerRequest w = true) ∧
    Interleaving ([0x08, 0x02].map .request) ([0x1F03].map .request) ([0x08, 0x1F03, 0x02].map .request) ∧
    ∃ t, runSteps 3 { State.reset with host := [0x08, 0x1F03, 0x02].map .request } = .next t :=
  ⟨by simp only [List.mem_singleton, forall_eq]; decide, .left _ _ _ _ (.right _ _ _ _ (.left _ _ _ _ .nil)), _, rfl⟩

end Sys2Proof.Tests
end

section
/-! The closed list of request outcomes (00_scope.md R14). -/

namespace Sys2Proof.Machine

/-- The decoder's refusals are the last three of the closed list (30_encoding.md R74 to R76). -/
theorem decodeRefusal_reserved (r : DecodeRefusal) :
    decodeRefusal r = .reservedOpcode ∨ decodeRefusal r = .reservedBits ∨ decodeRefusal r = .reservedModifier := by
  cases r with
  | reservedBits => exact .inr (.inl rfl)
  | reservedOpcode => exact .inl rfl
  | reservedModifier => exact .inr (.inr rfl)

/-- Settles O13: a word the decoder turns away meets one of its three refusals, and a decoded operation has the outcomes of
`exec_cases`. -/
theorem everyRequestIsDoneOrRefusedForAListedReason : Obligations.EveryRequestIsDoneOrRefusedForAListedReason := by
  intro w s rest hs
  cases hd : decode w with
  | rejected d =>
    exact .inr ⟨_, step_of_rejected hs hd, .inr (.inr (.inr (decodeRefusal_reserved d)))⟩
  | instr i =>
    rw [step_of_instr hs hd]
    rcases exec_cases i { s with host := rest } with done | hb | hm | hi
    · exact .inl done
    · exact .inr ⟨_, hb, .inl rfl⟩
    · exact .inr ⟨_, hm, .inr (.inl rfl)⟩
    · exact .inr ⟨_, hi, .inr (.inr (.inl rfl))⟩

end Sys2Proof.Machine
end

section
/-! What a completed operation does to the block's state, and what it depends on (10_state.md R24 to R26). -/

namespace Sys2Proof.Machine

variable {s t : State} {i : Instr}

/-! Slots against the write sets of `slotWrite`. -/

/-- No frame that drives the digital slots writes above them. -/
theorem frameWrite_hidden (r : Record) {j : Fin 32} (hj : 18 ≤ j.val) : slotWrite.frameWrite r j = none := by
  rw [slotWrite.frameWrite, dif_neg (by omega), if_neg (by omega), if_neg (by omega)]

/-- A digital slot is written with one of the two sentinels (R62). -/
theorem frameWrite_digital (r : Record) {j : Fin 32} (hj : j.val = 16 ∨ j.val = 17) :
    slotWrite.frameWrite r j = some 173#11 ∨ slotWrite.frameWrite r j = some 1812#11 := by
  rcases hj with hj | hj
  · cases hd : r.digitalChannel1 <;> simp [slotWrite.frameWrite, hj, hd]
  · cases hd : r.digitalChannel2 <;> simp [slotWrite.frameWrite, hj, hd]

/-- The writes of `DECSTD` and `DECEXT.LO` are those of `frameWrite` (R94, R95). -/
theorem writeFrame_getElem (r : Record) (ch : Slots) (j : Fin 32) :
    (writeDigital r 16 (writeAnalog r 0 ch))[j] = (slotWrite.frameWrite r j).getD ch[j] := by
  simp only [Fin.getElem_fin, writeDigital_getElem, writeAnalog_getElem, slotWrite.frameWrite]
  by_cases hanalog : j.val < 16
  · simp [hanalog, show j.val ≠ 16 by omega, show j.val ≠ 17 by omega]
  · by_cases h16 : j.val = 16
    · simp [h16, dig]
    · by_cases h17 : j.val = 17
      · simp [h17, dig]
      · simp [hanalog, h16, h17]

/-- The writes of `DECEXT.HI` are those of its write set (R96). -/
theorem writeHigh_getElem (r : Record) (ch : Slots) (j : Fin 32) :
    (writeAnalog r 16 ch)[j] = (slotWrite (.decExtHi r) j).getD ch[j] := by
  simp only [Fin.getElem_fin, writeAnalog_getElem, slotWrite]
  by_cases h : 16 ≤ j.val
  · simp [h, show j.val < 32 from j.isLt]
  · simp [h]

/-! Completed operations. -/

/-- A completed operation of a reader only answers (20_memory.md R48, 60_exceptions.md R156). -/
theorem exec_next_of_not_writer (h : exec i s = .next t) (hi : instrRole i ≠ .writer) : ∃ v, t = s.answered v := by
  cases i with
  | initStd | initExt | decStd r | decExtLo r | decExtHi r => exact absurd rfl hi
  | read idx =>
    obtain ⟨_, _, _, ht⟩ := execRead_next.1 h
    exact ⟨_, ht⟩
  | cdecFull val => exact ⟨_, execCdecFull_next.1 h⟩
  | cdecSafe val => exact ⟨_, execCdecSafe_next.1 h⟩
  | cenc val => exact ⟨_, execCenc_next.1 h⟩

/-- Each slot holds what the operation's write set gives it, or what it held. -/
theorem exec_next_slot (h : exec i s = .next t) (j : Fin 32) : t.slot j = (slotWrite i j).getD (s.slot j) := by
  cases i with
  | initStd =>
    obtain rfl := execInitStd_next.1 h
    simp [State.slot_def, slotWrite]
  | initExt =>
    obtain rfl := execInitExt_next.1 h
    simp [State.slot_def, slotWrite]
  | decStd r =>
    obtain ⟨-, -, rfl⟩ := execDecStd_next.1 h
    exact writeFrame_getElem r s.ch j
  | decExtLo r =>
    obtain ⟨-, -, rfl⟩ := execDecExtLo_next.1 h
    exact writeFrame_getElem r s.ch j
  | decExtHi r =>
    obtain ⟨-, -, rfl⟩ := execDecExtHi_next.1 h
    exact writeHigh_getElem r s.ch j
  | read idx | cdecFull val | cdecSafe val | cenc val =>
    obtain ⟨v, rfl⟩ := exec_next_of_not_writer h nofun
    rfl

/-- An operation that is no `INIT` leaves `MODE` and `BOUND` alone. -/
theorem exec_next_session (hstd : i ≠ .initStd) (hext : i ≠ .initExt) (h : exec i s = .next t) :
    t.mode = s.mode ∧ t.bound = s.bound := by
  cases i with
  | initStd => exact absurd rfl hstd
  | initExt => exact absurd rfl hext
  | decStd r =>
    obtain ⟨-, -, rfl⟩ := execDecStd_next.1 h
    exact ⟨rfl, rfl⟩
  | decExtLo r =>
    obtain ⟨-, -, rfl⟩ := execDecExtLo_next.1 h
    exact ⟨rfl, rfl⟩
  | decExtHi r =>
    obtain ⟨-, -, rfl⟩ := execDecExtHi_next.1 h
    exact ⟨rfl, rfl⟩
  | read idx | cdecFull val | cdecSafe val | cenc val =>
    obtain ⟨v, rfl⟩ := exec_next_of_not_writer h nofun
    exact ⟨rfl, rfl⟩

/-- Completion and the response are the same over any other slot array that agrees at the slot a `READ` names. -/
theorem exec_next_of_other_slots {ch : Slots}
    (hread : ∀ idx (j : Fin 32), i = .read idx → j.val = idx.toNat → ch[j] = s.slot j) (h : exec i s = .next t) :
    ∃ t', exec i { s with ch := ch } = .next t' ∧ t'.responses = t.responses := by
  cases i with
  | initStd =>
    obtain rfl := execInitStd_next.1 h
    exact ⟨_, rfl, rfl⟩
  | initExt =>
    obtain rfl := execInitExt_next.1 h
    exact ⟨_, rfl, rfl⟩
  | decStd r =>
    obtain ⟨hb, hm, rfl⟩ := execDecStd_next.1 h
    exact ⟨_, execDecStd_next.2 ⟨hb, hm, rfl⟩, rfl⟩
  | decExtLo r =>
    obtain ⟨hb, hm, rfl⟩ := execDecExtLo_next.1 h
    exact ⟨_, execDecExtLo_next.2 ⟨hb, hm, rfl⟩, rfl⟩
  | decExtHi r =>
    obtain ⟨hb, hm, rfl⟩ := execDecExtHi_next.1 h
    exact ⟨_, execDecExtHi_next.2 ⟨hb, hm, rfl⟩, rfl⟩
  | read idx =>
    obtain ⟨hb, j, hj, rfl⟩ := execRead_next.1 h
    refine ⟨_, execRead_next.2 ⟨hb, j, hj, rfl⟩, ?_⟩
    have hslot : ch[j] = s.slot j := hread idx j rfl (resolveIndex_some.1 hj).2
    rw [State.answered_responses, State.answered_responses, State.slot_def, hslot]
  | cdecFull val =>
    obtain rfl := execCdecFull_next.1 h
    exact ⟨_, rfl, rfl⟩
  | cdecSafe val =>
    obtain rfl := execCdecSafe_next.1 h
    exact ⟨_, rfl, rfl⟩
  | cenc val =>
    obtain rfl := execCenc_next.1 h
    exact ⟨_, rfl, rfl⟩

/-- Settles O39: the write sets are those of `slotWrite`, and the preconditions read `MODE` and `BOUND` only, so no slot but
the one a `READ` decodes enters an answer. -/
theorem operationsAccessExactlyTheirSlots : Obligations.OperationsAccessExactlyTheirSlots :=
  ⟨fun _ _ _ j h => exec_next_slot h j, fun _ _ _ _ hread h => exec_next_of_other_slots hread h⟩

/-- Settles O40: `startSession` sets both fields, and `exec_next_session` is the frame of the other seven operations. -/
theorem onlyInitWritesModeAndBound : Obligations.OnlyInitWritesModeAndBound := by
  intro i s t h
  refine ⟨?_, ?_, fun hstd hext => exec_next_session hstd hext h⟩
  · rintro rfl
    obtain rfl := execInitStd_next.1 h
    exact ⟨rfl, rfl⟩
  · rintro rfl
    obtain rfl := execInitExt_next.1 h
    exact ⟨rfl, rfl⟩

end Sys2Proof.Machine
end

section
/-! The session invariant (10_state.md R22, R25, R26, R32): where it holds, and that every step keeps it. -/

namespace Sys2Proof.Machine

variable {s t : State} {i : Instr}

/-- The invariant speaks of the block's own state only. -/
theorem SessionInvariant.of_block_eq (hs : SessionInvariant s) (h : t.block = s.block) : SessionInvariant t := by
  obtain ⟨ch, mode, bound, host, responses, draws⟩ := t
  cases h
  exact ⟨hs.modeClear, hs.hiddenCentred, hs.digitalSentinels⟩

/-- Without a session it asks for a clear `MODE` alone. -/
theorem SessionInvariant.of_not_bound (hb : s.bound = false) (hm : s.mode = .std) : SessionInvariant s where
  modeClear _ := hm
  hiddenCentred h := by simp [hb] at h
  digitalSentinels h := by simp [hb] at h

/-- In an extended session it asks for nothing. -/
theorem SessionInvariant.of_extended (hb : s.bound = true) (hm : s.mode = .ext) : SessionInvariant s where
  modeClear h := by simp [hb] at h
  hiddenCentred _ h := by simp [hm] at h
  digitalSentinels _ h := by simp [hm] at h

/-- The first state of a standard session meets it: every slot is at the centre. -/
theorem SessionInvariant.of_initStd (h : exec .initStd s = .next t) : SessionInvariant t := by
  have hslot : ∀ j, t.slot j = 992#11 := exec_next_slot h
  obtain rfl := execInitStd_next.1 h
  exact ⟨fun _ => rfl, fun _ _ j _ => hslot j, fun _ _ j _ => .inl (hslot j)⟩

/-- `DECSTD` keeps it: it writes no hidden slot, and sentinels to the digital ones. -/
theorem SessionInvariant.of_decStd {r : Record} (hs : SessionInvariant s) (h : exec (.decStd r) s = .next t) :
    SessionInvariant t := by
  have hslot : ∀ j, t.slot j = (slotWrite.frameWrite r j).getD (s.slot j) := exec_next_slot h
  obtain ⟨hb, hm, rfl⟩ := execDecStd_next.1 h
  refine ⟨fun _ => hm, fun _ _ j hj => ?_, fun _ _ j hj => ?_⟩
  · rw [hslot, frameWrite_hidden r hj]
    exact hs.hiddenCentred hb hm j hj
  · rw [hslot]
    rcases frameWrite_digital r hj with hw | hw <;> rw [hw]
    · exact .inr (.inl rfl)
    · exact .inr (.inr rfl)

/-- Every completed operation keeps it. -/
theorem SessionInvariant.of_exec (hs : SessionInvariant s) (h : exec i s = .next t) : SessionInvariant t := by
  cases i with
  | initStd => exact .of_initStd h
  | initExt =>
    obtain rfl := execInitExt_next.1 h
    exact .of_extended rfl rfl
  | decStd r => exact hs.of_decStd h
  | decExtLo r =>
    obtain ⟨hb, hm, rfl⟩ := execDecExtLo_next.1 h
    exact .of_extended hb hm
  | decExtHi r =>
    obtain ⟨hb, hm, rfl⟩ := execDecExtHi_next.1 h
    exact .of_extended hb hm
  | read idx | cdecFull val | cdecSafe val | cenc val =>
    obtain ⟨v, rfl⟩ := exec_next_of_not_writer h nofun
    exact hs.of_block_eq rfl

/-- Settles O44: an idle step changes nothing, a platform reset ends the session with `MODE` clear, and an operation keeps
the invariant by `SessionInvariant.of_exec`. -/
theorem everyStepKeepsTheSessionInvariant : Obligations.EveryStepKeepsTheSessionInvariant := by
  intro s t hs h
  rcases step_next_cases h with ⟨-, rfl⟩ | ⟨rest, -, rfl⟩ | ⟨w, rest, i, -, -, hexec⟩
  · exact hs
  · exact .of_not_bound rfl rfl
  · have taken : SessionInvariant { s with host := rest } := hs.of_block_eq rfl
    exact taken.of_exec hexec

/-- Settles O43: after reset there is no session and `MODE` is clear (R32). -/
theorem resetMeetsTheSessionInvariant : Obligations.ResetMeetsTheSessionInvariant := .of_not_bound rfl rfl

end Sys2Proof.Machine
end

section
/-! The step around `exec` (20_memory.md R50): the event it takes, and the requests a run performs one after another. -/

namespace Sys2Proof.Machine

variable {s t u : State} {i : Instr} {w : Request} {n : Nat}

/-- With nothing presented the step is idle (R171). -/
theorem step_of_no_event (hs : s.host = []) : step s = .next s := by
  rw [step, takeEvent_nil hs, idle]

/-- The step of a reset (R170). -/
theorem step_of_reset {rest : List HostEvent} (hs : s.host = .reset :: rest) :
    step s = .next (platformReset { s with host := rest }) := by
  rw [step, takeEvent_cons hs]

/-- The host's table check answers what the decoder reads from the word it names. -/
theorem decodeTableWord_eq_some {nbits w : Nat} : decodeTableWord nbits w = some i ↔ decode (tableWord nbits w) = .instr i := by
  rw [decodeTableWord]
  cases decode (tableWord nbits w) <;> simp

/-- Settles O11: one law of the step for each kind of event. -/
theorem stepServesTheFirstEvent : Obligations.StepServesTheFirstEvent :=
  fun _ => ⟨step_of_no_event, fun _ => step_of_reset, fun _ _ _ => step_of_instr⟩

/-- Settles O12: the presented word stands first, and taking it leaves the events that were there before. -/
theorem stepRunsThePresentedTableWord : Obligations.StepRunsThePresentedTableWord := by
  intro s nbits w i h
  exact step_of_instr (State.present_host s _) (decodeTableWord_eq_some.1 h)

/-! Runs of requests. -/

/-- A run goes on from the state its first step leaves. -/
theorem runSteps_succ_of_next (h : step s = .next u) : runSteps (n + 1) s = runSteps n u := by
  rw [runSteps, h]

/-- A completed operation answers once and takes no further event. -/
theorem exec_next_answers_once (h : exec i s = .next t) : (∃ v, t.responses = s.responses ++ [v]) ∧ t.host = s.host := by
  rcases exec_cases i s with ⟨t', v, ht, hr, hh⟩ | hf | hf | hf
  · obtain rfl : t' = t := by simpa [ht] using h
    exact ⟨⟨v, hr⟩, hh⟩
  all_goals simp [hf] at h

/-- A completed run whose first event is a request performs the operation it carries, then runs on the other events. -/
theorem runSteps_request_next {rest : List HostEvent} (hs : s.host = .request w :: rest)
    (h : runSteps (n + 1) s = .next t) :
    ∃ i u, decode w = .instr i ∧ exec i { s with host := rest } = .next u ∧ u.host = rest ∧ runSteps n u = .next t := by
  obtain ⟨u, hstep, hrun⟩ := runSteps_succ_next h
  cases hd : decode w with
  | rejected r => simp [step_of_rejected hs hd] at hstep
  | instr i =>
    rw [step_of_instr hs hd] at hstep
    exact ⟨i, u, rfl, hstep, (exec_next_answers_once hstep).2, hrun⟩

/-- A completed run of requests adds one response for each and takes every one of them. -/
theorem runSteps_requests_responses (ws : List Request) (hs : s.host = ws.map .request)
    (h : runSteps ws.length s = .next t) :
    ∃ vs : List Response, vs.length = ws.length ∧ t.responses = s.responses ++ vs ∧ t.host = [] := by
  induction ws generalizing s with
  | nil =>
    obtain rfl : s = t := by simpa [runSteps] using h
    exact ⟨[], rfl, by simp, hs⟩
  | cons w ws ih =>
    obtain ⟨i, u, -, hexec, hu, hrun⟩ := runSteps_request_next hs h
    obtain ⟨⟨v, hv⟩, -⟩ := exec_next_answers_once hexec
    obtain ⟨vs, hlen, hvs, hhost⟩ := ih hu hrun
    exact ⟨v :: vs, by simp [hlen], by simp [hvs, hv], hhost⟩

/-- Settles O46: by induction on the requests, each of which is answered once. -/
theorem runAnswersEveryRequest : Obligations.RunAnswersEveryRequest :=
  fun ws s _ h => runSteps_requests_responses (s := { s with host := ws.map .request }) ws rfl h

end Sys2Proof.Machine
end

section
/-! Words carried as bytes (20_memory.md R42). -/

namespace Sys2Proof

/-- Byte `k` of a carried request. -/
theorem bytesOfRequest_getElem? (w : Request) {k : Nat} (hk : k < 24) :
    (bytesOfRequest w)[k]? = some (w.extractLsb' (8 * k) 8) := by
  simp [bytesOfRequest, hk]

theorem bytesOfRequest_length (w : Request) : (bytesOfRequest w).length = 24 := by simp [bytesOfRequest]

/-- Bit `k` of a word read from bytes is bit `k % 8` of byte `k / 8`, and 0 where there is no such byte. -/
theorem requestOfBytes_getLsbD (bs : List Byte) {k : Nat} (hk : k < 192) :
    (requestOfBytes bs).getLsbD k = (bs[k / 8]?.getD 0#8).getLsbD (k % 8) := by
  induction bs generalizing k with
  | nil => simp [requestOfBytes]
  | cons b bs ih =>
    have hcons : requestOfBytes (b :: bs) = requestOfBytes bs <<< 8 ||| b.setWidth 192 := rfl
    rw [hcons, BitVec.getLsbD_or, BitVec.getLsbD_shiftLeft, BitVec.getLsbD_setWidth]
    by_cases hlow : k < 8
    · simp [hk, hlow, Nat.div_eq_of_lt hlow, Nat.mod_eq_of_lt hlow]
    · have hdiv : k / 8 = (k - 8) / 8 + 1 := by omega
      have hmod : k % 8 = (k - 8) % 8 := by omega
      have hhigh : b.getLsbD k = false := BitVec.getLsbD_of_ge b k (by omega)
      rw [ih (by omega), hdiv, hmod, List.getElem?_cons_succ]
      simp [hk, hlow, hhigh]

/-- The bytes of a request give the request back. -/
theorem requestOfBytes_bytesOfRequest (w : Request) : requestOfBytes (bytesOfRequest w) = w := by
  refine BitVec.eq_of_getLsbD_eq fun k hk => ?_
  have hpos : 8 * (k / 8) + k % 8 = k := Nat.div_add_mod k 8
  rw [requestOfBytes_getLsbD _ hk, bytesOfRequest_getElem? w (by omega), Option.getD_some, BitVec.getLsbD_extractLsb', hpos]
  simp [Nat.mod_lt k (show 0 < 8 by decide)]

/-- A request is taken from the front of a byte stream, whatever follows it. -/
theorem decodeBytes_bytesOfRequest_append (w : Request) (rest : List Byte) :
    decodeBytes (bytesOfRequest w ++ rest) = some (decode w, rest) := by
  have hlen : 24 ≤ (bytesOfRequest w ++ rest).length := by simp [bytesOfRequest_length]
  rw [decodeBytes, if_pos hlen, List.take_left' (bytesOfRequest_length w), List.drop_left' (bytesOfRequest_length w),
    requestOfBytes_bytesOfRequest]

/-- Settles O7: the laws of this section; the response clause is the definition of its two bytes. -/
theorem bytesCarryWordsLeastSignificantFirst : Obligations.BytesCarryWordsLeastSignificantFirst :=
  fun w _ rest => ⟨bytesOfRequest_length w, fun _ => bytesOfRequest_getElem? w, requestOfBytes_bytesOfRequest w,
    decodeBytes_bytesOfRequest_append w rest, rfl⟩

end Sys2Proof
end

section
/-! Readers (20_memory.md R48, 60_exceptions.md R156): an operation depends on the block's own state alone, and a reader's
leaves that state alone. -/

namespace Sys2Proof.Machine

variable {s t u : State} {i : Instr}

@[simp] theorem State.answered_block (s : State) (v : Response) : (s.answered v).block = s.block := rfl

theorem State.answered_inj {a b : Response} : s.answered a = s.answered b ↔ a = b := by
  simp [State.answered]

/-- A state is its block state and the rest. -/
theorem State.eq_of_block_eq (h : t.block = s.block) :
    t = { s with host := t.host, responses := t.responses, draws := t.draws } := by
  simp only [State.block, Prod.mk.injEq] at h
  obtain ⟨hch, hmode, hbound⟩ := h
  exact State.ext_fields _ _ hch hmode hbound rfl rfl rfl

/-- Completion, the response and the block state an operation leaves do not depend on what the host presents, on the earlier
responses or on the resets so far; of these three it changes the responses alone. -/
theorem exec_next_of_other_host (h : exec i s = .next u) :
    ∃ a, u.responses = s.responses ++ [a] ∧ ∀ host responses draws,
      exec i { s with host := host, responses := responses, draws := draws } =
        .next { u with host := host, responses := responses ++ [a], draws := draws } := by
  cases i with
  | initStd | initExt | cdecFull val | cdecSafe val | cenc val =>
    obtain rfl := respond_next.1 h
    exact ⟨_, rfl, fun _ _ _ => rfl⟩
  | decStd r =>
    obtain ⟨hb, hm, rfl⟩ := execDecStd_next.1 h
    exact ⟨_, rfl, fun _ _ _ => execDecStd_next.2 ⟨hb, hm, rfl⟩⟩
  | decExtLo r =>
    obtain ⟨hb, hm, rfl⟩ := execDecExtLo_next.1 h
    exact ⟨_, rfl, fun _ _ _ => execDecExtLo_next.2 ⟨hb, hm, rfl⟩⟩
  | decExtHi r =>
    obtain ⟨hb, hm, rfl⟩ := execDecExtHi_next.1 h
    exact ⟨_, rfl, fun _ _ _ => execDecExtHi_next.2 ⟨hb, hm, rfl⟩⟩
  | read idx =>
    obtain ⟨hb, j, hj, rfl⟩ := execRead_next.1 h
    exact ⟨_, rfl, fun _ _ _ => execRead_next.2 ⟨hb, j, hj, rfl⟩⟩

/-- From any state of the same block state an operation completes with the same response and the same block state. -/
theorem exec_next_of_block_eq (hblock : t.block = s.block) (h : exec i s = .next u) :
    ∃ a, u.responses = s.responses ++ [a] ∧
      exec i t = .next { u with host := t.host, responses := t.responses ++ [a], draws := t.draws } := by
  obtain ⟨a, ha, hother⟩ := exec_next_of_other_host h
  refine ⟨a, ha, ?_⟩
  rw [State.eq_of_block_eq hblock]
  exact hother _ _ _

/-- A codec operation gives one answer in every state (42_codec.md R110). -/
theorem exec_of_either (hi : instrRole i = .either) : ∃ v, ∀ s, exec i s = .next (s.answered v) := by
  cases i with
  | initStd | initExt | decStd r | decExtLo r | decExtHi r | read idx => simp [instrRole] at hi
  | cdecFull val | cdecSafe val | cenc val => exact ⟨_, fun _ => rfl⟩

/-- Settles O41: a reader's operation only answers, so by `exec_next_of_block_eq` whatever completes before it, itself
included, completes after it with the same answer. -/
theorem readerOperationsHaveNoSideEffect : Obligations.ReaderOperationsHaveNoSideEffect := by
  intro i s t hi h
  obtain ⟨v, rfl⟩ := exec_next_of_not_writer h hi
  have hblock : (s.answered v).block = s.block := State.answered_block s v
  refine ⟨v, rfl, ?_, fun heither s' => ?_, fun k u hk => ?_⟩
  · obtain ⟨a, ha, hagain⟩ := exec_next_of_block_eq hblock h
    obtain rfl : v = a := by simpa using ha
    rw [hagain]
    simp [State.answered]
  · obtain ⟨a, hanswer⟩ := exec_of_either heither
    obtain rfl : a = v := by simpa [hanswer, State.answered_inj] using h
    exact hanswer s'
  · obtain ⟨a, ha, hafter⟩ := exec_next_of_block_eq hblock hk
    exact ⟨_, a, hafter, rfl, ha, rfl⟩

/-- A merge of requests with reader requests leaves, where it completes, the block state that the requests alone leave from
any state of the same block state. -/
theorem Interleaving.runSteps_block_eq {as bs es : List HostEvent} (hmerge : Interleaving as bs es)
    (has : ∀ e ∈ as, ∃ w, e = .request w) (hbs : ∀ e ∈ bs, ∃ w, e = .request w ∧ readerRequest w = true)
    {s s' t : State} (hs : s.host = es) (hs' : s'.host = as) (hblock : s'.block = s.block)
    (h : runSteps es.length s = .next t) :
    ∃ u, runSteps as.length s' = .next u ∧ u.block = t.block := by
  induction hmerge generalizing s s' with
  | nil =>
    obtain rfl : s = t := by simpa [runSteps] using h
    exact ⟨s', rfl, hblock⟩
  | left e as bs es _ ih =>
    obtain ⟨⟨w, rfl⟩, has'⟩ := List.forall_mem_cons.1 has
    obtain ⟨i, v, hd, hexec, hv, hrun⟩ := runSteps_request_next hs h
    have htaken : State.block { s' with host := as } = State.block { s with host := es } := hblock
    obtain ⟨a, -, hexec'⟩ := exec_next_of_block_eq htaken hexec
    rw [List.length_cons, runSteps_succ_of_next ((step_of_instr hs' hd).trans hexec')]
    exact ih has' hbs hv rfl rfl hrun
  | right e as bs es _ ih =>
    obtain ⟨⟨w, rfl, hw⟩, hbs'⟩ := List.forall_mem_cons.1 hbs
    obtain ⟨i, v, hd, hexec, hv, hrun⟩ := runSteps_request_next hs h
    have hrole : instrRole i ≠ .writer := by simpa [readerRequest, hd] using hw
    obtain ⟨a, rfl⟩ := exec_next_of_not_writer hexec hrole
    exact ih has hbs' hv hs' hblock hrun

/-- Settles O47: both lists of the merge hold requests, those of the second readers'. -/
theorem readersNeverDisturbTheArray : Obligations.ReadersNeverDisturbTheArray := by
  intro ws rs es s t hreaders hmerge h
  have has : ∀ e ∈ ws.map HostEvent.request, ∃ w, e = .request w := by
    rintro _ hmem
    obtain ⟨w, -, rfl⟩ := List.mem_map.1 hmem
    exact ⟨w, rfl⟩
  have hbs : ∀ e ∈ rs.map HostEvent.request, ∃ w, e = .request w ∧ readerRequest w = true := by
    rintro _ hmem
    obtain ⟨w, hw, rfl⟩ := List.mem_map.1 hmem
    exact ⟨w, rfl, hreaders w hw⟩
  have halone := hmerge.runSteps_block_eq (s := { s with host := es }) (s' := { s with host := ws.map .request })
    has hbs rfl rfl rfl h
  rwa [List.length_map] at halone

end Sys2Proof.Machine
end

section
/-! The last write to a slot, and what `READ` answers after it (20_memory.md R51 (b), 43_array.md R134). -/

namespace Sys2Proof.Machine

variable {s t : State}

/-- A request before some others writes a slot for good exactly where none of them writes it. -/
theorem lastWrite_cons {w : Request} {i : Instr} (hd : decode w = .instr i) (j : Fin 32) (ws : List Request) :
    lastWrite j (w :: ws) = (lastWrite j ws).or (slotWrite i j) := by
  rw [lastWrite, hd]
  cases lastWrite j ws <;> rfl

/-- After a completed run of requests each slot holds the last value written to it, or what it held. -/
theorem runSteps_requests_slot (ws : List Request) (hs : s.host = ws.map .request)
    (h : runSteps ws.length s = .next t) (j : Fin 32) : t.slot j = (lastWrite j ws).getD (s.slot j) := by
  induction ws generalizing s with
  | nil =>
    obtain rfl : s = t := by simpa [runSteps] using h
    rfl
  | cons w ws ih =>
    obtain ⟨i, u, hd, hexec, hu, hrun⟩ := runSteps_request_next hs h
    have hslot : u.slot j = (slotWrite i j).getD (s.slot j) := exec_next_slot hexec j
    rw [ih hu hrun, hslot, lastWrite_cons hd]
    cases lastWrite j ws <;> rfl

/-- The full decode of a slot's value; no clamp binds on eleven bits (R134). -/
theorem zext16_decPolicy_full_rawOperand (v : Raw) :
    zext16 (decPolicy .full (rawOperand v)) = BitVec.ofNat 16 (v.toNat * 5 / 8 + 880) := by
  have hv : min v.toNat 2047 = v.toNat := by omega
  have hdec : decPolicy .full (rawOperand v) = ((min v.toNat 2047 * 5 / 8 + 880 : Nat) : Int) := dec_full_natCast v.toNat
  rw [hdec, zext16_natCast, hv]

/-- In a session a `READ` of a visible index answers the full decode of the slot of that number. -/
theorem exec_read_visible {j : Fin 32} (hb : s.bound = true) (hj : j.val < visibleSlots s.mode) :
    exec (.read (BitVec.ofNat 8 j.val)) s =
      .next (s.answered (BitVec.ofNat 16 ((s.slot j).toNat * 5 / 8 + 880))) := by
  have hidx : (BitVec.ofNat 8 j.val).toNat = j.val := by
    rw [BitVec.toNat_ofNat]
    omega
  have hresolve : resolveIndex s.mode (BitVec.ofNat 8 j.val) = some j :=
    resolveIndex_some.2 ⟨by rwa [hidx], hidx.symm⟩
  exact execRead_next.2 ⟨hb, j, hresolve, by rw [zext16_decPolicy_full_rawOperand]⟩

/-- Settles O45: the slot holds the value last written, and `READ` decodes what the slot holds. -/
theorem readReturnsTheMostRecentWrite : Obligations.ReadReturnsTheMostRecentWrite := by
  intro ws s t h
  have hslot : ∀ j, t.slot j = (lastWrite j ws).getD (s.slot j) :=
    runSteps_requests_slot (s := { s with host := ws.map .request }) ws rfl h
  refine ⟨hslot, fun j v hlast hb hj => ?_⟩
  have hv : t.slot j = v := by rw [hslot, hlast, Option.getD_some]
  rw [exec_read_visible hb hj, hv, State.answered]

end Sys2Proof.Machine
end

section
/-! The encoder against the decoder (30_encoding.md R69, R72, R77): a word carries an operation exactly when it agrees with
the encoded word on the bits the operation's format names. -/

namespace Sys2Proof

open Machine

variable {w : Request} {i : Instr}

/-! The operands a word carries, bit by bit. -/

/-- A field of a word is a given value exactly when its bits are. -/
theorem eq_extractLsb'_iff {n : Nat} {v : BitVec n} {lo : Nat} :
    v = w.extractLsb' lo n ↔ ∀ b < n, w.getLsbD (lo + b) = v.getLsbD b := by
  rw [BitVec.eq_of_getLsbD_eq_iff]
  refine forall₂_congr fun b hb => ?_
  simp [hb, eq_comm]

/-- The bits of a record's payload below the flag byte are those of its analog fields. -/
theorem recordPayload_getLsbD_chan (r : Record) (j : Fin 16) {b : Nat} (hb : b < 11) :
    (recordPayload r).getLsbD (11 * j.val + 8 + b) = r.chans[j].getLsbD b := by
  have hflags : (flagsPayload r).getLsbD (11 * j.val + 8 + b) = false := by
    rw [flagsPayload_getLsbD]
    simp [show 11 * j.val + 8 + b ≠ 184 by omega, show 11 * j.val + 8 + b ≠ 185 by omega,
      show 11 * j.val + 8 + b ≠ 186 by omega, show 11 * j.val + 8 + b ≠ 187 by omega]
  rw [recordPayload, BitVec.getLsbD_or, chansPayload_getLsbD_chan r j b hb, hflags, Bool.or_false]

/-- The bits of a record's payload in the flag byte are the predicates. -/
theorem recordPayload_getLsbD_flag (r : Record) {k : Nat} (hk : 184 ≤ k) :
    (recordPayload r).getLsbD k =
      ((decide (k = 184) && r.digitalChannel1) || (decide (k = 185) && r.digitalChannel2)
        || (decide (k = 186) && r.signalLoss) || (decide (k = 187) && r.failsafeActive)) := by
  rw [recordPayload, BitVec.getLsbD_or, chansPayload_getLsbD_outside r k (.inr hk), flagsPayload_getLsbD, Bool.false_or]

/-- The fields of format R cover `REQ[187:8]`. -/
theorem carriesRecord_iff_bits {r : Record} :
    CarriesRecord w r ↔ ∀ k, 8 ≤ k → k < 188 → w.getLsbD k = (recordPayload r).getLsbD k := by
  constructor
  · rintro ⟨hchan, hdig1, hdig2, hloss, hfs⟩ k hlo hhi
    by_cases hflag : 184 ≤ k
    · rw [recordPayload_getLsbD_flag r hflag]
      obtain rfl | rfl | rfl | rfl : k = 184 ∨ k = 185 ∨ k = 186 ∨ k = 187 := by omega
      · simp [hdig1]
      · simp [hdig2]
      · simp [hloss]
      · simp [hfs]
    · obtain ⟨j, b, hb, rfl⟩ : ∃ (j : Fin 16) (b : Nat), b < 11 ∧ k = 11 * j.val + 8 + b :=
        ⟨⟨(k - 8) / 11, by omega⟩, (k - 8) % 11, by omega, by rw [Fin.val_mk]; omega⟩
      rw [recordPayload_getLsbD_chan r j hb]
      exact eq_extractLsb'_iff.1 (hchan j) b hb
  · intro h
    refine ⟨fun j => eq_extractLsb'_iff.2 fun b hb => ?_, ?_, ?_, ?_, ?_⟩
    · rw [h _ (by omega) (by omega), recordPayload_getLsbD_chan r j hb]
    all_goals
      rw [h _ (by decide) (by decide), recordPayload_getLsbD_flag r (by decide)]
      simp

/-- A field placed from bit 8 up is what formats X and V carry. -/
theorem eq_extractLsb'_iff_bits {n : Nat} {v : BitVec n} (hn : n ≤ 184) :
    v = w.extractLsb' 8 n ↔ ∀ k, 8 ≤ k → k < 8 + n → w.getLsbD k = (placeField v 8).getLsbD k := by
  rw [eq_extractLsb'_iff]
  constructor
  · intro h k hlo hhi
    obtain ⟨b, rfl⟩ := Nat.exists_eq_add_of_le hlo
    rw [h b (by omega), placeField_getLsbD]
    simp [show 8 + b < 192 by omega]
  · intro h b hb
    rw [h _ (by omega) (by omega), placeField_getLsbD]
    simp [show 8 + b < 192 by omega]

/-- A word carries the operands of an operation exactly when its named payload bits are those of the operation's payload. -/
theorem carriesOperands_iff_bits :
    CarriesOperands w i ↔ ∀ k, 8 ≤ k → k < namedBits i → w.getLsbD k = (payload i).getLsbD k := by
  cases i with
  | initStd | initExt => exact ⟨fun _ _ hlo hhi => absurd hlo (Nat.not_le.2 hhi), fun _ => trivial⟩
  | decStd r | decExtLo r | decExtHi r => exact carriesRecord_iff_bits
  | read idx | cdecFull val | cdecSafe val | cenc val => exact eq_extractLsb'_iff_bits (by decide)

/-! The bits of an encoded word. -/

/-- Every format names the low byte. -/
theorem eight_le_namedBits (i : Instr) : 8 ≤ namedBits i := by
  cases i <;> simp [namedBits]

theorem encode_getLsbD_low (i : Instr) {k : Nat} (hk : k < 8) : (encode i).getLsbD k = (opcodeByte i).getLsbD k := by
  have hbits := eq_extractLsb'_iff.1 (encode_lowByte i).symm k hk
  rwa [Nat.zero_add] at hbits

theorem encode_getLsbD_payload (i : Instr) {k : Nat} (hk : 8 ≤ k) : (encode i).getLsbD k = (payload i).getLsbD k := by
  rw [encode, BitVec.getLsbD_or, placeField_getLsbD, BitVec.getLsbD_of_ge (opcodeByte i) (k - 0) hk, Bool.and_false,
    Bool.false_or]

/-- A payload is zero from the first ignored bit up (R80). -/
theorem payload_getLsbD_ignored (i : Instr) {k : Nat} (hk : namedBits i ≤ k) : (payload i).getLsbD k = false := by
  have hfield : ∀ {n : Nat} (v : BitVec n), 8 + n ≤ k → (placeField v 8).getLsbD k = false := by
    intro n v hn
    rw [placeField_getLsbD, BitVec.getLsbD_of_ge v (k - 8) (by omega), Bool.and_false]
  have hrecord : ∀ r : Record, 188 ≤ k → (recordPayload r).getLsbD k = false := by
    intro r hr
    rw [recordPayload_getLsbD_flag r (by omega)]
    simp [show k ≠ 184 by omega, show k ≠ 185 by omega, show k ≠ 186 by omega, show k ≠ 187 by omega]
  cases i with
  | initStd | initExt => exact BitVec.getLsbD_zero
  | decStd r | decExtLo r | decExtHi r => exact hrecord r hk
  | read idx | cdecFull val | cdecSafe val | cenc val => exact hfield _ hk

/-! Decoding. -/

/-- The record the decoder reads is the one the word carries. -/
theorem carriesRecord_iff {r : Record} : CarriesRecord w r ↔ recordField w = r := by
  constructor
  · rintro ⟨hchan, hdig1, hdig2, hloss, hfs⟩
    obtain ⟨chans, dig1, dig2, loss, fs⟩ := r
    have hchans : Vector.ofFn (chanField w) = chans := Vector.ext fun j hj => by
      rw [Vector.getElem_ofFn]
      exact (hchan ⟨j, hj⟩).symm
    exact (Record.mk.injEq ..).mpr ⟨hchans, hdig1.symm, hdig2.symm, hloss.symm, hfs.symm⟩
  · rintro rfl
    exact ⟨fun j => Vector.getElem_ofFn j.isLt, rfl, rfl, rfl, rfl⟩

/-- A word is an operation exactly when its low byte is the operation's row of R72 and it carries the operation's operands. -/
theorem decode_eq_instr_iff_operands :
    decode w = .instr i ↔ w.extractLsb' 0 8 = opcodeByte i ∧ CarriesOperands w i := by
  have hrow : w.extractLsb' 0 8 = opcodeByte i → (decode w = .instr i ↔ CarriesOperands w i) := by
    intro hlow
    cases i with
    | initStd => simp [decode_initStd hlow, CarriesOperands]
    | initExt => simp [decode_initExt hlow, CarriesOperands]
    | decStd r => simp [decode_decStd hlow, CarriesOperands, carriesRecord_iff]
    | decExtLo r => simp [decode_decExtLo hlow, CarriesOperands, carriesRecord_iff]
    | decExtHi r => simp [decode_decExtHi hlow, CarriesOperands, carriesRecord_iff]
    | read idx => simp [decode_read hlow, CarriesOperands, indexField, bitField, eq_comm]
    | cdecFull val => simp [decode_cdecFull hlow, CarriesOperands, valueField, bitField, eq_comm]
    | cdecSafe val => simp [decode_cdecSafe hlow, CarriesOperands, valueField, bitField, eq_comm]
    | cenc val => simp [decode_cenc hlow, CarriesOperands, valueField, bitField, eq_comm]
  exact ⟨fun h => ⟨lowByte_of_decode h, (hrow (lowByte_of_decode h)).1 h⟩, fun ⟨hlow, hops⟩ => (hrow hlow).2 hops⟩

/-- A word is an operation exactly when it agrees with the encoded word on the bits the operation's format names. -/
theorem decode_eq_instr_iff :
    decode w = .instr i ↔ w.setWidth (namedBits i) = (encode i).setWidth (namedBits i) := by
  have hagree : w.setWidth (namedBits i) = (encode i).setWidth (namedBits i) ↔
      ∀ k < namedBits i, w.getLsbD k = (encode i).getLsbD k := by
    rw [BitVec.eq_of_getLsbD_eq_iff]
    refine forall₂_congr fun k hk => ?_
    simp [hk]
  rw [hagree, decode_eq_instr_iff_operands, eq_comm, eq_extractLsb'_iff, carriesOperands_iff_bits]
  constructor
  · rintro ⟨hlow, hpayload⟩ k hk
    by_cases h8 : k < 8
    · rw [encode_getLsbD_low i h8, ← hlow k h8, Nat.zero_add]
    · rw [encode_getLsbD_payload i (Nat.not_lt.1 h8), hpayload k (Nat.not_lt.1 h8) hk]
  · intro h
    refine ⟨fun b hb => ?_, fun k hlo hhi => ?_⟩
    · rw [Nat.zero_add, h b (Nat.lt_of_lt_of_le hb (eight_le_namedBits i)), encode_getLsbD_low i hb]
    · rw [h k hhi, encode_getLsbD_payload i hlo]

/-- Settles O5: the encoded word agrees with itself. -/
theorem decodeOfEncodeIsTheOperation : Obligations.DecodeOfEncodeIsTheOperation :=
  fun _ => decode_eq_instr_iff.2 rfl

/-- Settles O6: below the named bits by `decode_eq_instr_iff`, and from there up the encoded word is zero. -/
theorem encodeOfDecodeKeepsNamedBits : Obligations.EncodeOfDecodeKeepsNamedBits := by
  intro w i h
  rw [decode_eq_instr_iff.1 h]
  refine BitVec.eq_of_getLsbD_eq fun k hk => ?_
  rw [BitVec.getLsbD_setWidth, BitVec.getLsbD_setWidth]
  by_cases hnamed : k < namedBits i
  · simp [hk, hnamed]
  · have hignored := Nat.not_lt.1 hnamed
    rw [encode_getLsbD_payload i ((eight_le_namedBits i).trans hignored), payload_getLsbD_ignored i hignored]
    simp [hnamed]

/-- Settles O4: both words agree with the encoded word on the named bits, and the step performs the operation they decode
to. -/
theorem ignoredBitsChangeNothing : Obligations.IgnoredBitsChangeNothing := by
  intro w w' i h hagree
  have h' : decode w' = .instr i := decode_eq_instr_iff.2 (hagree.symm.trans (decode_eq_instr_iff.1 h))
  refine ⟨h', fun s rest => ?_⟩
  rw [step_of_instr rfl h, step_of_instr rfl h']

/-- Settles O8: bit 3 of the encoded word is bit 3 of the opcode byte. -/
theorem modifierBitCarriesModeHalfOrPolicy : Obligations.ModifierBitCarriesModeHalfOrPolicy := by
  intro r idx val
  have hbit : ∀ i, (encode i).getLsbD 3 = (opcodeByte i).getLsbD 3 := fun i => encode_getLsbD_low i (by decide)
  simp only [hbit, opcodeByte]
  decide

/-- Settles O9: each word by its row of R72. -/
theorem workedEncodingsOfTheSpec : Obligations.WorkedEncodingsOfTheSpec :=
  ⟨decode_initStd rfl, decode_initExt rfl, decode_read rfl, decode_cdecSafe rfl, decode_cenc rfl⟩

end Sys2Proof
end

section
/-! The decoder's refusals (30_encoding.md R73 to R76, R78): which words it turns away, and with what reason. -/

namespace Sys2Proof

open Machine

variable {w : Request}

/-- The reason a decoded word was turned away, none for an operation. -/
def Decoded.refusal? : Decoded → Option DecodeRefusal
  | .instr _ => none
  | .rejected r => some r

theorem Decoded.refusal?_eq_some {d : Decoded} {r : DecodeRefusal} : d.refusal? = some r ↔ d = .rejected r := by
  cases d <;> simp [Decoded.refusal?]

theorem Decoded.refusal?_eq_none {d : Decoded} : d.refusal? = none ↔ ∃ i, d = .instr i := by
  cases d <;> simp [Decoded.refusal?]

/-- Checks (1) to (3) of R73, in their order, on the three fields of the low byte. -/
def headerRefusal (reserved : BitVec 4) (op : BitVec 3) (m : Bool) : Option DecodeRefusal :=
  if reserved ≠ 0#4 then some .reservedBits
  else if op = 6#3 ∨ op = 7#3 then some .reservedOpcode
  else if m = true ∧ (op = 1#3 ∨ op = 3#3 ∨ op = 5#3) then some .reservedModifier
  else none

theorem opcode_cases (op : BitVec 3) :
    op = 0#3 ∨ op = 1#3 ∨ op = 2#3 ∨ op = 3#3 ∨ op = 4#3 ∨ op = 5#3 ∨ op = 6#3 ∨ op = 7#3 := by
  revert op; decide

/-- The decoder's refusals are those of R73. -/
theorem decode_refusal? (w : Request) :
    (decode w).refusal? = headerRefusal (reservedField w) (opField w) (modifierBit w) := by
  rw [decode, headerRefusal]
  split
  · rfl
  · generalize opField w = op, modifierBit w = m
    rcases opcode_cases op with rfl | rfl | rfl | rfl | rfl | rfl | rfl | rfl <;> cases m <;> rfl

theorem decode_eq_rejected_iff {r : DecodeRefusal} :
    decode w = .rejected r ↔ headerRefusal (reservedField w) (opField w) (modifierBit w) = some r := by
  rw [← decode_refusal?, Decoded.refusal?_eq_some]

theorem exists_decode_eq_instr_iff :
    (∃ i, decode w = .instr i) ↔ headerRefusal (reservedField w) (opField w) (modifierBit w) = none := by
  rw [← decode_refusal?, Decoded.refusal?_eq_none]

/-- The three checks of WellFormed.lean are those of R73, each asking that its refusal does not apply. -/
theorem wellFormed_iff :
    Request.wellFormed w = true ↔ headerRefusal (reservedField w) (opField w) (modifierBit w) = none := by
  have hchecks : ∀ (reserved : BitVec 4) (op : BitVec 3) (m : Bool),
      (reserved == 0#4 && decide (op.toNat < 6) && (!m || (op == 0#3 || op == 2#3 || op == 4#3))) =
        (headerRefusal reserved op m).isNone := by decide
  rw [← Option.isNone_iff_eq_none, ← hchecks]
  rfl

/-- Settles O3: both sides say that no check of R73 refuses the word. -/
theorem decoderAcceptsExactlyWellFormedWords : Obligations.DecoderAcceptsExactlyWellFormedWords :=
  fun _ => exists_decode_eq_instr_iff.trans wellFormed_iff.symm

/-- Settles O1: the first three clauses are the refusals of `headerRefusal`, and in the fourth no check refuses. -/
theorem requestWordsDecodeInFixedOrder : Obligations.RequestWordsDecodeInFixedOrder := by
  intro w s rest hs
  have hrefused : ∀ r, headerRefusal (w.extractLsb' 4 4) (w.extractLsb' 0 3) (w.getLsbD 3) = some r →
      step s = .refused (decodeRefusal r) := fun r h => step_of_rejected hs (decode_eq_rejected_iff.2 h)
  refine ⟨fun hres => hrefused .reservedBits ?_, fun hres hop => hrefused .reservedOpcode ?_,
    fun hres hm hop => hrefused .reservedModifier ?_, fun hres h6 h7 hmod => ?_⟩
  · rw [headerRefusal, if_pos hres]
  · rw [headerRefusal, if_neg (not_not.2 hres), if_pos hop]
  · have hassigned : ¬(w.extractLsb' 0 3 = 6#3 ∨ w.extractLsb' 0 3 = 7#3) := by
      rcases hop with h | h | h <;> rw [h] <;> decide
    rw [headerRefusal, if_neg (not_not.2 hres), if_neg hassigned, if_pos ⟨hm, hop⟩]
  · have hnone : headerRefusal (w.extractLsb' 4 4) (w.extractLsb' 0 3) (w.getLsbD 3) = none := by
      rw [headerRefusal, if_neg (not_not.2 hres), if_neg (not_or.2 ⟨h6, h7⟩), if_neg hmod]
    obtain ⟨i, hi⟩ := exists_decode_eq_instr_iff.2 hnone
    obtain ⟨hlow, hoperands⟩ := decode_eq_instr_iff_operands.1 hi
    exact ⟨i, hi, hlow.symm, hoperands, step_of_instr hs hi⟩

/-! The 256 low bytes. -/

/-- The refusal of a low byte (R78). -/
def lowByteRefusal (b : BitVec 8) : Option DecodeRefusal :=
  headerRefusal (b.extractLsb' 4 4) (b.extractLsb' 0 3) (b.getLsbD 3)

/-- The payload does not enter the refusal. -/
theorem decode_append_refusal? (p : BitVec 184) (b : BitVec 8) :
    (decode (p ++ b : Request)).refusal? = lowByteRefusal b := by
  rw [decode_refusal?, reservedField_of_lowByte, opField_of_lowByte, modifierBit_of_lowByte,
    BitVec.extractLsb'_append_eq_right, lowByteRefusal]

/-- From 16 up a low byte has a reserved bit set. -/
theorem lowByteRefusal_of_ge {b : Nat} (hlo : 16 ≤ b) (hhi : b < 256) :
    lowByteRefusal (BitVec.ofNat 8 b) = some .reservedBits := by
  have hreserved : (BitVec.ofNat 8 b).extractLsb' 4 4 ≠ 0#4 := by
    rw [← BitVec.toNat_inj.ne, BitVec.extractLsb'_toNat, BitVec.toNat_ofNat, Nat.shiftRight_eq_div_pow]
    show _ % 16 ≠ 0
    omega
  rw [lowByteRefusal, headerRefusal, if_pos hreserved]

/-- What is counted over the 256 low bytes is counted over the first sixteen, the other 240 being alike. -/
theorem countP_lowByteRefusal (q : Option DecodeRefusal → Bool) :
    (List.range 256).countP (fun b => q (lowByteRefusal (BitVec.ofNat 8 b))) =
      (List.range 16).countP (fun b => q (lowByteRefusal (BitVec.ofNat 8 b))) +
        bif q (some .reservedBits) then 240 else 0 := by
  have hhigh : ∀ b ∈ List.range 240,
      (q (lowByteRefusal (BitVec.ofNat 8 (16 + b))) = true ↔ q (some .reservedBits) = true) := by
    intro b hb
    rw [List.mem_range] at hb
    rw [lowByteRefusal_of_ge (by omega) (by omega)]
  rw [show 256 = 16 + 240 from rfl, List.range_add, List.countP_append, List.countP_map]
  congr 1
  refine (List.countP_congr hhigh).trans ?_
  cases q (some .reservedBits) <;> simp

/-- Settles O2: the counts are those of the sixteen low bytes without a reserved bit, and 240 for the others. -/
theorem lowBytesArePartitioned : Obligations.LowBytesArePartitioned := by
  intro p word
  have hword : ∀ b, (decode (word b)).refusal? = lowByteRefusal (BitVec.ofNat 8 b) :=
    fun b => decode_append_refusal? p (BitVec.ofNat 8 b)
  have hrejected : ∀ r, ((List.range 256).countP fun b => decide (decode (word b) = .rejected r)) =
      (List.range 16).countP (fun b => lowByteRefusal (BitVec.ofNat 8 b) == some r) +
        bif some .reservedBits == some r then 240 else 0 := by
    intro r
    refine (List.countP_congr fun b _ => ?_).trans (countP_lowByteRefusal (· == some r))
    rw [← hword, decide_eq_true_iff, beq_iff_eq, Decoded.refusal?_eq_some]
  have haccepted : ((List.range 256).countP fun b => match decode (word b) with
      | .instr _ => true
      | .rejected _ => false) = (List.range 16).countP (fun b => (lowByteRefusal (BitVec.ofNat 8 b)).isNone) := by
    refine (List.countP_congr fun b _ => ?_).trans (countP_lowByteRefusal Option.isNone)
    rw [← hword]
    cases decode (word b) <;> exact Iff.rfl
  exact ⟨haccepted.trans (by decide), (hrejected .reservedModifier).trans (by decide),
    (hrejected .reservedOpcode).trans (by decide), (hrejected .reservedBits).trans (by decide)⟩

end Sys2Proof
end

section
/-! The source form of an operation (30_encoding.md R80, R81). -/

namespace Sys2Proof.Machine

/-- The channels of a record fit a channel list. -/
theorem chansFit_sourceChans (r : Record) : Source.chansFit (sourceChans r) = true := by
  have hlen : (sourceChans r).length = 16 := by simp [sourceChans]
  have hall : ∀ n ∈ sourceChans r, n ≤ 2047 := by
    intro n hn
    obtain ⟨v, -, rfl⟩ := List.mem_map.1 hn
    omega
  simpa [Source.chansFit, hlen] using hall

/-- Every operand of a source form fits its field. -/
theorem wellFormed_sourceOfInstr (i : Instr) : (sourceOfInstr i).wellFormed = true := by
  cases i with
  | initStd | initExt => rfl
  | decStd r | decExtLo r | decExtHi r => exact chansFit_sourceChans r
  | read idx => exact decide_eq_true (Nat.le_of_lt_succ idx.isLt)
  | cdecFull val | cdecSafe val | cenc val => exact decide_eq_true (Nat.le_of_lt_succ val.isLt)

/-- The record of a channel list and a flag list taken from a record is that record. -/
theorem recordOfSource_source (r : Record) : recordOfSource (sourceChans r) (sourceFlags r) = r := by
  obtain ⟨chans, dig1, dig2, loss, fs⟩ := r
  refine (Record.mk.injEq ..).mpr ⟨?_, ?_⟩
  · refine Vector.ext fun j hj => ?_
    simp [sourceChans]
  · simp [sourceFlags]

/-- An operation's source form stands for it (R81). -/
theorem instrOfSource_sourceOfInstr (i : Instr) : instrOfSource (sourceOfInstr i) = i := by
  cases i with
  | initStd | initExt => rfl
  | decStd r | decExtLo r | decExtHi r => simp only [sourceOfInstr, instrOfSource, recordOfSource_source]
  | read idx | cdecFull val | cdecSafe val | cenc val =>
    simp only [sourceOfInstr, instrOfSource, BitVec.ofNat_toNat, BitVec.setWidth_eq]

/-- Settles O10: the operands fit their fields, and reading them back loses nothing. -/
theorem sourceFormAssemblesToTheOperation : Obligations.SourceFormAssemblesToTheOperation := by
  intro i
  rw [assemble, if_pos (wellFormed_sourceOfInstr i), instrOfSource_sourceOfInstr]

end Sys2Proof.Machine
end

section
/-! The three frame decode operations (41_decoder.md R91 to R96, R99, R102): their preconditions, and the one state each
leaves. -/

namespace Sys2Proof.Machine

variable {s t : State} {i : Instr} {op : Record → Instr} {m : Mode} {r : Record} {j : Fin 32}

/-! What the write sets give each slot. -/

theorem frameWrite_analog (r : Record) (hj : j.val < 16) : slotWrite.frameWrite r j = some r.chans[j.val] := by
  rw [slotWrite.frameWrite, dif_pos hj]

theorem frameWrite_digital1 (r : Record) :
    slotWrite.frameWrite r 16 = some (if r.digitalChannel1 then 1812#11 else 173#11) := rfl

theorem frameWrite_digital2 (r : Record) :
    slotWrite.frameWrite r 17 = some (if r.digitalChannel2 then 1812#11 else 173#11) := rfl

/-- Every slot visible in the standard mode is written (R94). -/
theorem exists_frameWrite_eq_some (r : Record) (hj : j.val < 18) : ∃ v, slotWrite.frameWrite r j = some v := by
  by_cases hanalog : j.val < 16
  · exact ⟨_, frameWrite_analog r hanalog⟩
  · rcases frameWrite_digital r (show j.val = 16 ∨ j.val = 17 by omega) with hw | hw <;> exact ⟨_, hw⟩

theorem slotWrite_decExtHi_high (r : Record) (k : Fin 16) (hj : j.val = 16 + k.val) :
    slotWrite (.decExtHi r) j = some r.chans[k] := by
  simp [slotWrite, hj]

theorem slotWrite_decExtHi_low (r : Record) (hj : j.val < 16) : slotWrite (.decExtHi r) j = none := by
  rw [slotWrite, dif_neg (by omega)]

/-- The slots after the writes of a frame that drives the digital slots (R94, R95). -/
theorem slots_of_frameWrite (hslot : ∀ j, t.slot j = (slotWrite.frameWrite r j).getD (s.slot j)) :
    (∀ (j : Fin 32) (h : j.val < 16), t.slot j = r.chans[j.val]) ∧
    t.slot 16 = (if r.digitalChannel1 then 1812#11 else 173#11) ∧
    t.slot 17 = (if r.digitalChannel2 then 1812#11 else 173#11) ∧
    ∀ j : Fin 32, 18 ≤ j.val → t.slot j = s.slot j := by
  refine ⟨fun j hj => ?_, ?_, ?_, fun j hj => ?_⟩
  · rw [hslot, frameWrite_analog r hj, Option.getD_some]
  · rw [hslot, frameWrite_digital1, Option.getD_some]
  · rw [hslot, frameWrite_digital2, Option.getD_some]
  · rw [hslot, frameWrite_hidden r hj, Option.getD_none]

/-! The state a decode leaves. -/

/-- FAILSAFE wins over DROPPED, and COMPLETE is always set (R93). -/
theorem statusResponse_eq (r : Record) :
    statusResponse r = if r.failsafeActive then 3#16 else if r.signalLoss then 5#16 else 1#16 := by
  rw [statusResponse, frameStatus]
  cases r.failsafeActive
  · cases r.signalLoss <;> rfl
  · rfl

/-- The slot array with an operation's write set written. -/
def writtenSlots (i : Instr) (ch : Slots) : Slots := Vector.ofFn fun j => (slotWrite i j).getD ch[j]

theorem writtenSlots_getElem (ch : Slots) (j : Fin 32) : (writtenSlots i ch)[j] = (slotWrite i j).getD ch[j] := by
  simp [writtenSlots]

/-- A slot array is the written one when each of its slots is. -/
theorem eq_writtenSlots {ch ch' : Slots} (h : ∀ j : Fin 32, ch'[j] = (slotWrite i j).getD ch[j]) :
    ch' = writtenSlots i ch :=
  Vector.ext fun k hk => (h ⟨k, hk⟩).trans (writtenSlots_getElem ch ⟨k, hk⟩).symm

/-- The state after `op` has decoded `r`: its write set written and the status answered. -/
def State.decoded (s : State) (op : Record → Instr) (r : Record) : State :=
  (s.withSlots (writtenSlots (op r) s.ch)).answered (statusResponse r)

@[simp] theorem State.decoded_mode : (s.decoded op r).mode = s.mode := by
  rw [State.decoded, State.answered_mode, State.withSlots_mode]

@[simp] theorem State.decoded_bound : (s.decoded op r).bound = s.bound := by
  rw [State.decoded, State.answered_bound, State.withSlots_bound]

@[simp] theorem State.decoded_host : (s.decoded op r).host = s.host := by
  rw [State.decoded, State.answered_host, State.withSlots_host]

@[simp] theorem State.decoded_draws : (s.decoded op r).draws = s.draws := by
  rw [State.decoded, State.answered_draws, State.withSlots_draws]

theorem State.decoded_block : (s.decoded op r).block = (writtenSlots (op r) s.ch, s.mode, s.bound) := by
  rw [State.decoded, State.answered_block, State.block_eq, State.withSlots_ch, State.withSlots_mode, State.withSlots_bound]

theorem State.decoded_slot (j : Fin 32) : (s.decoded op r).slot j = (slotWrite (op r) j).getD (s.slot j) := by
  rw [State.slot_def, State.decoded, State.answered_ch, State.withSlots_ch, writtenSlots_getElem, State.slot_def]

theorem State.decoded_responses :
    (s.decoded op r).responses =
      s.responses ++ [if r.failsafeActive then 3#16 else if r.signalLoss then 5#16 else 1#16] := by
  rw [State.decoded, State.answered_responses, State.withSlots_responses, statusResponse_eq]

/-- A decode changes nothing but the slots and the responses. -/
theorem State.decoded_frame :
    (s.decoded op r).mode = s.mode ∧ (s.decoded op r).bound = s.bound ∧ (s.decoded op r).host = s.host ∧
    (s.decoded op r).draws = s.draws ∧
    (s.decoded op r).responses =
      s.responses ++ [if r.failsafeActive then 3#16 else if r.signalLoss then 5#16 else 1#16] :=
  ⟨decoded_mode, decoded_bound, decoded_host, decoded_draws, decoded_responses⟩

/-! The operations. -/

/-- `op` is a frame decode operation of a session in mode `m` (R92). -/
inductive DecodeOperation : (Record → Instr) → Mode → Prop where
  | std : DecodeOperation .decStd .std
  | extLo : DecodeOperation .decExtLo .ext
  | extHi : DecodeOperation .decExtHi .ext

/-- All three are one operation up to the mode and the write set. -/
theorem DecodeOperation.exec_eq (hop : DecodeOperation op m) (r : Record) (s : State) :
    exec (op r) s = requireMode m s fun s => .next (s.decoded op r) := by
  cases hop with
  | std =>
    rw [exec, execDecStd]
    simp only [respond, eq_writtenSlots (i := .decStd r) (writeFrame_getElem r _), State.decoded]
  | extLo =>
    rw [exec, execDecExtLo]
    simp only [respond, halfBase, eq_writtenSlots (i := .decExtLo r) (writeFrame_getElem r _), State.decoded]
  | extHi =>
    rw [exec, execDecExtHi]
    simp only [respond, halfBase, eq_writtenSlots (writeHigh_getElem r _), State.decoded]

theorem DecodeOperation.notBound (hop : DecodeOperation op m) (r : Record) (hb : s.bound = false) :
    exec (op r) s = .refused .notBound := by
  rw [hop.exec_eq, requireMode_notBound hb]

theorem DecodeOperation.modeMismatch (hop : DecodeOperation op m) (r : Record) (hb : s.bound = true) (hm : s.mode ≠ m) :
    exec (op r) s = .refused .modeMismatch := by
  rw [hop.exec_eq, requireMode_mismatch hb hm]

theorem DecodeOperation.completes (hop : DecodeOperation op m) (r : Record) (hb : s.bound = true) (hm : s.mode = m) :
    exec (op r) s = .next (s.decoded op r) := by
  rw [hop.exec_eq, requireMode_pass hb hm]

/-- A decode that completes found both preconditions met. -/
theorem DecodeOperation.next (hop : DecodeOperation op m) (h : exec (op r) s = .next t) :
    s.bound = true ∧ s.mode = m ∧ t = s.decoded op r := by
  rw [hop.exec_eq, requireMode_next, Host.Outcome.next.injEq] at h
  obtain ⟨hb, hm, ht⟩ := h
  exact ⟨hb, hm, ht.symm⟩

/-- The status predicates enter no write (R93). -/
theorem DecodeOperation.decoded_block_of_status (hop : DecodeOperation op m) (r : Record) (s : State)
    (loss failsafe : Bool) :
    (s.decoded op { r with signalLoss := loss, failsafeActive := failsafe }).block = (s.decoded op r).block := by
  have hwrites : slotWrite (op { r with signalLoss := loss, failsafeActive := failsafe }) = slotWrite (op r) := by
    cases hop <;> rfl
  simp only [State.decoded_block, writtenSlots, hwrites]

/-- Settles O24: all three operations are `requireMode` of their mode, and what follows it completes. -/
theorem decodePreconditionsInOrder : Obligations.DecodePreconditionsInOrder := by
  intro op m hopm r s
  have hop : DecodeOperation op m := by
    rcases hopm with h | h | h <;> cases h
    exacts [.std, .extLo, .extHi]
  exact ⟨hop.notBound r, hop.modeMismatch r, fun hb hm => ⟨_, hop.completes r hb hm⟩⟩

/-- Settles O20: the row of R72, the preconditions, and the write set of a frame. -/
theorem decStdWritesTheFrame : Obligations.DecStdWritesTheFrame := by
  have hop := DecodeOperation.std
  refine ⟨fun w hw => ⟨_, decode_decStd hw, carriesRecord_iff.2 rfl⟩,
    fun r s => ⟨hop.notBound r, hop.modeMismatch r, ?_⟩⟩
  intro hb hm
  obtain ⟨hanalog, hdig1, hdig2, hhidden⟩ := slots_of_frameWrite (s := s) (t := s.decoded .decStd r) State.decoded_slot
  exact ⟨_, hop.completes r hb hm, hanalog, hdig1, hdig2, hhidden, State.decoded_frame⟩

/-- Settles O21: as for `DECSTD`, in the extended mode. -/
theorem decExtLoWritesTheLowHalf : Obligations.DecExtLoWritesTheLowHalf := by
  have hop := DecodeOperation.extLo
  refine ⟨fun w hw => ⟨_, decode_decExtLo hw, carriesRecord_iff.2 rfl⟩,
    fun r s => ⟨hop.notBound r, hop.modeMismatch r, ?_⟩⟩
  intro hb hm
  obtain ⟨hanalog, hdig1, hdig2, hhidden⟩ := slots_of_frameWrite (s := s) (t := s.decoded .decExtLo r) State.decoded_slot
  exact ⟨_, hop.completes r hb hm, hanalog, hdig1, hdig2, hhidden, State.decoded_frame⟩

/-- Settles O22: the write set of a high half is the slots from 16 up. -/
theorem decExtHiWritesTheHighHalf : Obligations.DecExtHiWritesTheHighHalf := by
  have hop := DecodeOperation.extHi
  refine ⟨fun w hw => ⟨_, decode_decExtHi hw, carriesRecord_iff.2 rfl⟩,
    fun r s => ⟨hop.notBound r, hop.modeMismatch r, ?_⟩⟩
  intro hb hm
  refine ⟨_, hop.completes r hb hm, fun j k hj => ?_, fun j hj => ?_, State.decoded_frame⟩
  · rw [State.decoded_slot, slotWrite_decExtHi_high r k hj, Option.getD_some]
  · rw [State.decoded_slot, slotWrite_decExtHi_low r hj, Option.getD_none]

/-- Settles O23: the status is `statusResponse_eq`, and the preconditions and the writes do not read its two predicates. -/
theorem statusFollowsPrecedenceAndNeverGatesTheWrite : Obligations.StatusFollowsPrecedenceAndNeverGatesTheWrite := by
  intro op hop r s t h
  obtain ⟨m, hop⟩ : ∃ m, DecodeOperation op m := by
    rcases hop with rfl | rfl | rfl
    exacts [⟨_, .std⟩, ⟨_, .extLo⟩, ⟨_, .extHi⟩]
  obtain ⟨hb, hm, rfl⟩ := hop.next h
  refine ⟨_, State.decoded_responses, fun hfs => ?_, fun hfs hloss => ?_, fun hfs hloss => ?_, fun loss failsafe => ?_⟩
  · simp [hfs]
  · simp [hfs, hloss]
  · simp [hfs, hloss]
  · exact ⟨_, hop.completes _ hb hm, hop.decoded_block_of_status r s loss failsafe⟩

/-- Settles O26: both have the write set of `frameWrite`, which writes every slot below 18 whatever it held. -/
theorem standardAndLowHalfComputeTheSame : Obligations.StandardAndLowHalfComputeTheSame := by
  intro r s s' t t' h h'
  obtain ⟨-, -, rfl⟩ := DecodeOperation.std.next h
  obtain ⟨-, -, rfl⟩ := DecodeOperation.extLo.next h'
  refine ⟨fun j hj => ?_, _, State.decoded_responses, State.decoded_responses⟩
  obtain ⟨v, hv⟩ := exists_frameWrite_eq_some r hj
  simp only [State.decoded_slot, slotWrite, hv, Option.getD_some]

/-- After an operation that writes `v` to a visible slot, `READ` of that slot answers the full decode of `v`. -/
theorem exec_read_written {v : Raw} (h : exec i s = .next t) (hw : slotWrite i j = some v) (hb : t.bound = true)
    (hj : j.val < visibleSlots t.mode) :
    exec (.read (BitVec.ofNat 8 j.val)) t = .next (t.answered (BitVec.ofNat 16 (v.toNat * 5 / 8 + 880))) := by
  have hslot : t.slot j = v := by rw [exec_next_slot h, hw, Option.getD_some]
  rw [exec_read_visible hb hj, hslot]

/-- The full decode of a digital sentinel (R102). -/
theorem sentinel_fullDecode (b : Bool) :
    BitVec.ofNat 16 ((if b then 1812#11 else 173#11).toNat * 5 / 8 + 880) = if b then 2012#16 else 988#16 := by
  cases b <;> rfl

/-- Settles O27: each visible slot was just written, so `exec_read_written` gives its `READ`. -/
theorem readerSeesTheDecodedFrame : Obligations.ReaderSeesTheDecodedFrame := by
  intro r s hb hm
  have h := DecodeOperation.std.completes r hb hm
  have hread : ∀ (j : Fin 32) (v : Raw), j.val < 18 → slotWrite.frameWrite r j = some v →
      exec (.read (BitVec.ofNat 8 j.val)) (s.decoded .decStd r) =
        .next ((s.decoded .decStd r).answered (BitVec.ofNat 16 (v.toNat * 5 / 8 + 880))) := by
    intro j v hj hw
    refine exec_read_written h hw (by rw [State.decoded_bound, hb]) ?_
    rw [State.decoded_mode, hm]
    exact hj
  refine ⟨_, h, ?_, ?_, fun k => ?_⟩
  · rw [← sentinel_fullDecode]
    exact hread 16 _ (by decide) (frameWrite_digital1 r)
  · rw [← sentinel_fullDecode]
    exact hread 17 _ (by decide) (frameWrite_digital2 r)
  · exact hread ⟨k.val, by omega⟩ _ (Nat.lt_of_lt_of_le k.isLt (by decide)) (frameWrite_analog r k.isLt)

end Sys2Proof.Machine
end

section
/-! Sequences of extended-mode halves, run as steps (41_decoder.md R97, R101). -/

namespace Sys2Proof.Machine

variable {s t : State} {i : Instr} {j : Fin 32}

/-! The last write of a sequence of requests. -/

/-- A last request that writes a slot settles what it holds. -/
theorem lastWrite_concat {w : Request} {v : Raw} (hd : decode w = .instr i) (hw : slotWrite i j = some v)
    (ws : List Request) : lastWrite j (ws ++ [w]) = some v := by
  induction ws with
  | nil => rw [List.nil_append, lastWrite_cons hd, hw, lastWrite, Option.none_or]
  | cons w' ws ih => rw [List.cons_append, lastWrite, ih]

/-- Requests that do not write a slot leave no last write there. -/
theorem lastWrite_eq_none {ws : List Request} (hws : ∀ w ∈ ws, ∃ i, decode w = .instr i ∧ slotWrite i j = none) :
    lastWrite j ws = none := by
  induction ws with
  | nil => rfl
  | cons w ws ih =>
    obtain ⟨⟨i, hd, hw⟩, hws'⟩ := List.forall_mem_cons.1 hws
    rw [lastWrite_cons hd, hw, ih hws', Option.none_or]

/-! Halves. -/

/-- The request word of a half. -/
def halfRequest (p : Half × Record) : Request := encode (halfOperation p)

theorem decode_halfRequest (p : Half × Record) : decode (halfRequest p) = .instr (halfOperation p) :=
  decodeOfEncodeIsTheOperation _

/-- In an extended session a half completes, and the session goes on. -/
theorem exec_half_completes (p : Half × Record) (hb : s.bound = true) (hm : s.mode = .ext) :
    ∃ t, exec (halfOperation p) s = .next t ∧ t.bound = true ∧ t.mode = .ext ∧ t.host = s.host := by
  obtain ⟨half, r⟩ := p
  cases half with
  | low => exact ⟨_, DecodeOperation.extLo.completes r hb hm, by simp [hb, hm]⟩
  | high => exact ⟨_, DecodeOperation.extHi.completes r hb hm, by simp [hb, hm]⟩

/-- In an extended session any sequence of halves completes. -/
theorem runSteps_halves_completes (halves : List (Half × Record)) (hb : s.bound = true) (hm : s.mode = .ext)
    (hs : s.host = (halves.map halfRequest).map .request) :
    ∃ t, runSteps halves.length s = .next t ∧ t.bound = true ∧ t.mode = .ext := by
  induction halves generalizing s with
  | nil => exact ⟨s, rfl, hb, hm⟩
  | cons p halves ih =>
    obtain ⟨u, hexec, hub, hum, hhost⟩ :=
      exec_half_completes (s := { s with host := (halves.map halfRequest).map .request }) p hb hm
    rw [List.length_cons, runSteps_succ_of_next ((step_of_instr hs (decode_halfRequest p)).trans hexec)]
    exact ih hub hum hhost

/-- Presented in an extended session, a sequence of halves completes in it, each slot holding its last write. -/
theorem runSteps_presented_halves (halves : List (Half × Record)) (hb : s.bound = true) (hm : s.mode = .ext) :
    ∃ t, runSteps halves.length { s with host := halves.map fun p => .request (encode (halfOperation p)) } = .next t ∧
      t.bound = true ∧ t.mode = .ext ∧
      ∀ j, t.slot j = (lastWrite j (halves.map halfRequest)).getD (s.slot j) := by
  have hhost : (halves.map fun p => HostEvent.request (encode (halfOperation p))) =
      (halves.map halfRequest).map .request := List.map_map.symm
  rw [hhost]
  obtain ⟨t, hrun, htb, htm⟩ :=
    runSteps_halves_completes (s := { s with host := (halves.map halfRequest).map .request }) halves hb hm rfl
  have hlen : (halves.map halfRequest).length = halves.length := List.length_map _
  exact ⟨t, hrun, htb, htm, runSteps_requests_slot (s := { s with host := (halves.map halfRequest).map .request }) _ rfl
    (hlen.symm ▸ hrun)⟩

/-- A last half decides the slots of its write set. -/
theorem runSteps_halves_last (halves : List (Half × Record)) (p : Half × Record) (hb : s.bound = true)
    (hm : s.mode = .ext) :
    ∃ t, runSteps (halves.length + 1)
        { s with host := (halves ++ [p]).map fun p => .request (encode (halfOperation p)) } = .next t ∧
      ∀ j v, slotWrite (halfOperation p) j = some v → t.slot j = v := by
  obtain ⟨t, hrun, -, -, hslot⟩ := runSteps_presented_halves (halves ++ [p]) hb hm
  rw [List.length_append, List.length_singleton] at hrun
  refine ⟨t, hrun, fun j v hw => ?_⟩
  rw [hslot, List.map_append, List.map_singleton, lastWrite_concat (decode_halfRequest p) hw, Option.getD_some]

/-- Settles O25: both halves write slots 16 and 17, so the last one decides them. -/
theorem sharedSlotsHoldTheLastHalf : Obligations.SharedSlotsHoldTheLastHalf := by
  intro halves r s hb hm
  constructor
  · obtain ⟨t, hrun, hlast⟩ := runSteps_halves_last halves (.high, r) hb hm
    exact ⟨t, hrun, hlast 16 _ (slotWrite_decExtHi_high r 0 rfl), hlast 17 _ (slotWrite_decExtHi_high r 1 rfl)⟩
  · obtain ⟨t, hrun, hlast⟩ := runSteps_halves_last halves (.low, r) hb hm
    exact ⟨t, hrun, hlast 16 _ (frameWrite_digital1 r), hlast 17 _ (frameWrite_digital2 r)⟩

/-- Low halves write no slot from 18 up. -/
theorem lastWrite_low_halves {halves : List (Half × Record)} (hlow : ∀ p ∈ halves, p.1 = .low) (hj : 18 ≤ j.val) :
    lastWrite j (halves.map halfRequest) = none := by
  refine lastWrite_eq_none fun w hw => ?_
  obtain ⟨⟨half, r⟩, hp, rfl⟩ := List.mem_map.1 hw
  obtain rfl : half = .low := hlow _ hp
  exact ⟨_, decode_halfRequest _, frameWrite_hidden r hj⟩

/-- Settles O28: `INIT.EXT` leaves an extended session with every slot at the centre; the halves keep the session, and low
halves do not write the slots from 18 up. -/
theorem halvesCompleteInAnySequence : Obligations.HalvesCompleteInAnySequence := by
  intro s₀ s hinit halves
  have hcentre : ∀ j, s.slot j = 992#11 := exec_next_slot hinit
  obtain ⟨hm, hb⟩ : s.mode = .ext ∧ s.bound = true := by
    obtain rfl := execInitExt_next.1 hinit
    exact ⟨rfl, rfl⟩
  obtain ⟨t, hrun, htb, htm, hslot⟩ := runSteps_presented_halves halves hb hm
  refine ⟨t, hrun, fun hlow j hj => ?_, fun next => ?_⟩
  · rw [hslot, lastWrite_low_halves hlow hj, Option.getD_none, hcentre]
  · obtain ⟨u, hexec, -⟩ := exec_half_completes next htb htm
    exact ⟨u, hexec, exec_next_slot hexec⟩

end Sys2Proof.Machine
end

section
/-! The arithmetic of the value codec (42_codec.md R110 to R120): its three operations, the order they keep, and the round
trips. -/

namespace Sys2Proof.Machine

variable {s : State} {val : ValueOperand}

/-! The operations. -/

theorem exec_cdecFull (val : ValueOperand) (s : State) :
    exec (.cdecFull val) s = .next (s.answered (BitVec.ofNat 16 (min val.toNat 2047 * 5 / 8 + 880))) := by
  have hdec : decPolicy .full (valueOperand val) = ((min val.toNat 2047 * 5 / 8 + 880 : Nat) : Int) :=
    dec_full_natCast val.toNat
  exact execCdecFull_next.2 (by rw [hdec, zext16_natCast])

theorem exec_cdecSafe (val : ValueOperand) (s : State) :
    exec (.cdecSafe val) s = .next (s.answered (BitVec.ofNat 16 (max 173 (min val.toNat 1812) * 5 / 8 + 880))) := by
  have hdec : decPolicy .safe (valueOperand val) = ((max 173 (min val.toNat 1812) * 5 / 8 + 880 : Nat) : Int) :=
    dec_safe_natCast val.toNat
  exact execCdecSafe_next.2 (by rw [hdec, zext16_natCast])

theorem exec_cenc {v : Nat} (hv : enc val.toNat = v) : exec (.cenc val) s = .next (s.answered (BitVec.ofNat 16 v)) := by
  have henc : enc (valueOperand val) = v := hv
  exact execCenc_next.2 (by rw [henc, zext16_natCast])

/-! Order and range (R116). -/

/-- A decode is non-decreasing: its clamp, its scaling and its floor are. -/
theorem dec_mono {x y lo hi : Int} (h : lo ≤ hi) (hxy : x ≤ y) : dec x lo hi ≤ dec y lo hi := by
  have hclamp := clamp_mono h hxy
  rw [dec_eq, dec_eq]
  omega

/-- A decode lies between the decodes of its policy's bounds. -/
theorem dec_bounds (x : Int) {lo hi : Int} (h : lo ≤ hi) :
    lo * 5 / 8 + 880 ≤ dec x lo hi ∧ dec x lo hi ≤ hi * 5 / 8 + 880 := by
  obtain ⟨hlo, hhi⟩ := clamp_bounds (v := x) h
  rw [dec_eq]
  omega

/-- The encode is non-decreasing: its floor and its clamp are. -/
theorem enc_mono {x y : Int} (hxy : x ≤ y) : enc x ≤ enc y := by
  rw [enc_eq, enc_eq]
  exact clamp_mono (by decide) (by omega)

/-- The encode lies between the digital sentinels. -/
theorem enc_bounds (n : Int) : 173 ≤ enc n ∧ enc n ≤ 1812 := clamp_bounds (by decide)

/-- What is at most the lowest safe result encodes to the lower bound (R114). -/
theorem enc_of_le {n : Int} (h : n ≤ 988) : enc n = 173 :=
  le_antisymm (enc_mono h) (enc_bounds n).1

/-- What is at least the highest safe result encodes to the upper bound (R114). -/
theorem enc_of_ge {n : Int} (h : 2012 ≤ n) : enc n = 1812 :=
  le_antisymm (enc_bounds n).2 (enc_mono h)

/-- In the safe range no clamp of the encode binds (R111). -/
theorem enc_of_safe {n : Int} (hlo : 988 ≤ n) (hhi : n ≤ 2012) : enc n = ((n - 880) * 8 + 4) / 5 := by
  rw [enc_eq, clamp_eq_max_min (by decide)]
  omega

/-- The addends 4 and 2 of a division by 5, the ceiling and round-half-up, differ exactly at the remainders 1 and 2 (R118). -/
theorem ceil_ne_roundHalfUp_iff (a : Int) : (a + 4) / 5 ≠ (a + 2) / 5 ↔ a % 5 = 1 ∨ a % 5 = 2 := by
  omega

/-! Round trips (R117). -/

/-- `ceil(8a/5)` is a raw value that the full decode takes to `a + 880`: `5 * ceil(8a/5) / 8` lies in `[a, a + 1/2]`. -/
theorem dec_full_ceil {n : Int} (hlo : 880 ≤ n) (hhi : n ≤ 2159) : dec (((n - 880) * 8 + 4) / 5) 0 2047 = n := by
  rw [dec_eq, clamp_eq_max_min (by decide)]
  omega

/-- Decoding `x` loses the remainder of `5x` by 8, and the encode's ceiling gives `x` back while that is below 5. -/
theorem enc_dec_safe {x : Nat} (hlo : 173 ≤ x) (hhi : x ≤ 1812) :
    enc (dec x 173 1812) = x - if x * 5 % 8 < 5 then 0 else 1 := by
  have hclamp : max 173 (min x 1812) = x := by omega
  rw [dec_safe_natCast, hclamp, enc_of_safe (by omega) (by omega)]
  split <;> omega

/-! Counting over whole periods. -/

/-- On whole periods a predicate counts `k` times as often as the periodic one it agrees with does on the first of them. -/
theorem countP_range'_of_periodic {P Q : Nat → Prop} [DecidablePred P] [DecidablePred Q] {start len : Nat} (k m : Nat)
    (hlen : len = k * m) (hP : Function.Periodic P m) (hQ : ∀ x, start ≤ x → x < start + len → (Q x ↔ P x)) :
    ((List.range' start len).countP fun x => decide (Q x)) = k * (List.range' start m).countP fun x => decide (P x) := by
  subst hlen
  induction k with
  | zero => simp
  | succ k ih =>
    rw [Nat.succ_mul] at hQ ⊢
    have hfirst := ih fun x hlo hhi => hQ x hlo (by omega)
    have hlast : ((List.range' (start + k * m) m).countP fun x => decide (Q x)) =
        (List.range' start m).countP fun x => decide (P x) := by
      rw [Nat.add_comm, ← List.map_add_range', List.countP_map]
      refine List.countP_congr fun x hx => ?_
      obtain ⟨hlo, hhi⟩ := List.mem_range'_1.1 hx
      have hshift : P (x + k * m) = P x := hP.nat_mul k x
      rw [Function.comp_apply, decide_eq_true_iff, decide_eq_true_iff, hQ _ (by omega) (by omega), Nat.add_comm, hshift]
    rw [← List.range'_append_1, List.countP_append, hfirst, hlast, Nat.succ_mul]

/-- Counting the casts of a list's values counts the values. -/
theorem countP_intCast (l : List Nat) (p : Int → Bool) :
    (do let x ← l; pure (x : Int)).countP p = l.countP fun x : Nat => p x := by
  have hmap : (do let x ← l; pure (x : Int)) = l.map (fun x : Nat => (x : Int)) := List.flatMap_pure_eq_map _ l
  rw [hmap, List.countP_map]
  rfl

/-- A predicate of the residue of `x * c` by `m` has period `m`. -/
theorem periodic_mul_mod (R : Nat → Prop) (c m : Nat) : Function.Periodic (fun x => R (x * c % m)) m := fun x => by
  dsimp only
  rw [Nat.add_mul, Nat.add_mul_mod_self_left]

/-! The obligations. -/

/-- Settles O30: a full decode cannot be negative, so only the upper bound clamps. -/
theorem cdecFullAnswersTheFullDecode : Obligations.CdecFullAnswersTheFullDecode :=
  ⟨fun _ h => decode_cdecFull h, fun val s => ⟨_, rfl, by omega, by omega, exec_cdecFull val s⟩⟩

/-- Settles O31: between the bounds neither policy clamps, so both operations give one answer. -/
theorem cdecSafeAnswersTheSafeDecode : Obligations.CdecSafeAnswersTheSafeDecode := by
  refine ⟨fun _ h => decode_cdecSafe h, fun val s => ⟨_, rfl, by omega, by omega, exec_cdecSafe val s, ?_, ?_, ?_⟩⟩
  · intro h
    omega
  · intro h
    omega
  · intro hlo hhi
    have hclamp : max 173 (min val.toNat 1812) = min val.toNat 2047 := by omega
    rw [exec_cdecSafe, exec_cdecFull, hclamp]

/-- Settles O32: the answer is the encode, which `enc_of_le` and `enc_of_ge` give outside the safe range. -/
theorem cencAnswersTheClampedEncode : Obligations.CencAnswersTheClampedEncode := by
  refine ⟨fun _ h => decode_cenc h, fun val s => ?_⟩
  obtain ⟨v, hv⟩ : ∃ v : Nat, enc val.toNat = v := Int.eq_ofNat_of_zero_le (le_trans (by decide) (enc_bounds _).1)
  refine ⟨(((val.toNat : Int) - 880) * 8 + 4) / 5, v, by omega, by omega, ?_, exec_cenc hv, ?_, ?_, ?_, ?_⟩
  · rw [← hv, enc_eq, clamp_eq_max_min (by decide)]
  · intro h
    have hmin := enc_of_le (n := val.toNat) (by omega)
    omega
  · intro h
    have hmax := enc_of_ge (n := val.toNat) (by omega)
    omega
  · intro h
    rw [h] at hv
    exact Int.ofNat_inj.1 hv.symm
  · intro h
    rw [h] at hv
    exact Int.ofNat_inj.1 hv.symm

/-- Settles O33: the results of the full decode are all of 880 to 2159, each taken at the raw value of `dec_full_ceil`. -/
theorem codecIsMonotoneInRange : Obligations.CodecIsMonotoneInRange := by
  refine ⟨fun x y hxy _ => ?_, fun x _ => ?_, ?_⟩
  · have hxy : (x : Int) ≤ y := Int.ofNat_le.2 hxy
    exact ⟨dec_mono (by decide) hxy, dec_mono (by decide) hxy, enc_mono hxy⟩
  · obtain ⟨hfullMin, hfullMax⟩ := dec_bounds x (lo := 0) (hi := 2047) (by decide)
    obtain ⟨hsafeMin, hsafeMax⟩ := dec_bounds x (lo := 173) (hi := 1812) (by decide)
    exact ⟨hfullMin, hfullMax, hsafeMin, hsafeMax⟩
  · have himage : (Finset.range 2048).image (fun x : Nat => dec x 0 2047) = Finset.Icc 880 2159 := by
      ext n
      rw [Finset.mem_image, Finset.mem_Icc]
      constructor
      · rintro ⟨x, -, rfl⟩
        exact dec_bounds x (by decide)
      · rintro ⟨hlo, hhi⟩
        refine ⟨(((n - 880) * 8 + 4) / 5).toNat, Finset.mem_range.2 (by omega), ?_⟩
        rw [Int.toNat_of_nonneg (by omega), dec_full_ceil hlo hhi]
    rw [himage, Int.card_Icc]
    rfl

/-- Settles O34: `enc_dec_safe` says which raw values drift, by a residue of period 8; 1640 values are 205 periods. -/
theorem roundTripDriftsByAtMostOne : Obligations.RoundTripDriftsByAtMostOne := by
  refine ⟨enc_of_le (by decide), enc_of_ge (by decide), fun x hlo hhi => ?_, ?_, ?_, fun n hlo hhi => ?_⟩
  · rw [enc_dec_safe hlo hhi]
    split <;> omega
  · rw [countP_intCast, countP_range'_of_periodic 205 8 rfl (periodic_mul_mod (· < 5) 5 8) fun x hlo hhi => ?_]
    · decide
    · rw [enc_dec_safe hlo (by omega)]
      split <;> omega
  · rw [countP_intCast, countP_range'_of_periodic 205 8 rfl (periodic_mul_mod (5 ≤ ·) 5 8) fun x hlo hhi => ?_]
    · decide
    · rw [enc_dec_safe hlo (by omega)]
      split <;> omega
  · rw [enc_of_safe (by omega) (by omega), dec_full_ceil (by omega) (by omega)]

/-- Settles O35: the addends 4 and 2 differ exactly at the residues 1 and 2 by 5; 1025 values are 205 periods. -/
theorem encodeTakesTheCeiling : Obligations.EncodeTakesTheCeiling := by
  refine ⟨fun a => by omega, fun n hlo hhi => ?_, ?_, enc_of_le le_rfl, ?_, by decide⟩
  · rw [enc_of_safe (by omega) (by omega)]
    omega
  · rw [countP_intCast,
      countP_range'_of_periodic 205 5 rfl (periodic_mul_mod (fun r => r = 1 ∨ r = 2) 8 5) fun n hlo hhi => ?_]
    · decide
    · rw [enc_of_safe (by omega) (by omega), ceil_ne_roundHalfUp_iff]
      omega
  · decide

/-- Settles O36: a negative numerator gives a quotient that is not positive either way, and both are clamped to 173. -/
theorem truncatingDivisionEncodesTheSame : Obligations.TruncatingDivisionEncodesTheSame := by
  intro n _
  rcases le_or_gt 0 (((n : Int) - 880) * 8 + 4) with hnonneg | hneg
  · rw [Int.tdiv_eq_ediv_of_nonneg hnonneg, enc_eq]
  · have htdiv : (((n : Int) - 880) * 8 + 4).tdiv 5 ≤ Int.tdiv 0 5 := Int.tdiv_le_tdiv (by decide) hneg.le
    rw [Int.zero_tdiv] at htdiv
    rw [enc_of_le (by omega), clamp_eq_max_min (by decide)]
    omega

/-- Settles O37: the decode keeps the order, so outside the bounds it gives no more than 988 or no less than 2012. -/
theorem fullDecodeOutsideBoundsEncodesToBounds : Obligations.FullDecodeOutsideBoundsEncodesToBounds := by
  refine ⟨fun x h => enc_of_le ?_, fun x h => enc_of_ge ?_⟩
  · calc dec x 0 2047 ≤ dec 173 0 2047 := dec_mono (by decide) (by omega)
      _ = 988 := by decide
  · calc 2012 = dec 1812 0 2047 := by decide
      _ ≤ dec x 0 2047 := dec_mono (by decide) (by omega)

end Sys2Proof.Machine
end

section
/-! The lifecycle of the channel array (43_array.md R130 to R136): the two initialisations, what `READ` answers or refuses,
and the safe view a host computes from it. -/

namespace Sys2Proof.Machine

variable {s : State} {idx : IndexOperand} {j : Fin 32}

/-! `READ` (R134, R135). -/

/-- Without a session a `READ` is refused, whatever its index. -/
theorem exec_read_notBound (idx : IndexOperand) (hb : s.bound = false) : exec (.read idx) s = .refused .notBound := by
  rw [exec, execRead, requireBound_notBound hb]

/-- In a session a `READ` of an index that is not visible is refused. -/
theorem exec_read_hidden (hb : s.bound = true) (hidx : visibleSlots s.mode ≤ idx.toNat) :
    exec (.read idx) s = .refused .indexOutOfRange := by
  rw [exec, execRead, requireBound_bound hb, resolveIndex_none.2 hidx]

/-- In a session a `READ` whose index is a visible slot's number answers the full decode of that slot. -/
theorem exec_read_slot (hb : s.bound = true) (hj : j.val = idx.toNat) (hvisible : j.val < visibleSlots s.mode) :
    exec (.read idx) s = .next (s.answered (BitVec.ofNat 16 ((s.slot j).toNat * 5 / 8 + 880))) := by
  obtain rfl : idx = BitVec.ofNat 8 j.val := by rw [hj, BitVec.ofNat_toNat, BitVec.setWidth_eq]
  exact exec_read_visible hb hvisible

/-- Settles O18: the two refusals, and the full decode where neither applies; eleven bits keep it in 880 to 2159. -/
theorem readAnswersTheFullDecodeOfItsSlot : Obligations.ReadAnswersTheFullDecodeOfItsSlot := by
  refine ⟨fun _ h => decode_read h, fun idx s =>
    ⟨exec_read_notBound idx, fun hb hm h => ?_, fun hb hm h => ?_, fun i hi hb hstd => ?_⟩⟩
  · exact exec_read_hidden hb (by rwa [hm])
  · exact exec_read_hidden hb (by rwa [hm])
  · have hvisible : i.val < visibleSlots s.mode := by
      cases hm : s.mode with
      | std => exact hstd hm
      | ext => exact i.isLt
    exact ⟨_, rfl, by omega, by omega, exec_read_slot hb hi hvisible⟩

/-! Initialisation (R130 to R132). -/

/-- A new session holds the centre value in every slot. -/
theorem startSession_slot (m : Mode) (s : State) (j : Fin 32) : (startSession m s).slot j = 992#11 := by
  rw [State.slot_def, startSession_ch, Fin.getElem_fin, Vector.getElem_replicate]

/-- A `READ` right after a session began and `v` was answered gives 1500 at every visible index. -/
theorem exec_read_startSession (m : Mode) (s : State) (v : Response) (hidx : idx.toNat < visibleSlots m) :
    exec (.read idx) ((startSession m s).answered v) = .next (((startSession m s).answered v).answered 1500#16) := by
  have hlt : idx.toNat < 32 := hidx.trans_le (visibleSlots_le m)
  have hslot : ((startSession m s).answered v).slot ⟨idx.toNat, hlt⟩ = 992#11 := startSession_slot m s _
  rw [exec_read_slot (j := ⟨idx.toNat, hlt⟩) rfl rfl hidx, hslot]
  rfl

/-- Settles O16: `INIT.STD` starts a session of 18 visible slots. -/
theorem initStdStartsAStandardSession : Obligations.InitStdStartsAStandardSession :=
  ⟨fun _ h => decode_initStd h, fun s => ⟨(startSession .std s).answered 0#16, rfl, startSession_slot .std s,
    rfl, rfl, rfl, rfl, rfl, fun _ h => exec_read_startSession .std s 0#16 h, fun _ h => exec_read_hidden rfl h⟩⟩

/-- Settles O17: `INIT.EXT` starts a session of 32 visible slots. -/
theorem initExtStartsAnExtendedSession : Obligations.InitExtStartsAnExtendedSession :=
  ⟨fun _ h => decode_initExt h, fun s => ⟨(startSession .ext s).answered 0#16, rfl, startSession_slot .ext s,
    rfl, rfl, rfl, rfl, rfl, fun _ h => exec_read_startSession .ext s 0#16 h, fun _ h => exec_read_hidden rfl h⟩⟩

/-- Settles O19: five closed equations, each evaluated. -/
theorem initialValueIsTheCentre : Obligations.InitialValueIsTheCentre := by
  refine ⟨rfl, rfl, ?_, ?_, ?_⟩ <;> decide

/-! The safe view (R136). -/

/-- The safe decode is the full decode clamped to the decodes of the safe bounds: scaling and floor keep the order. -/
theorem dec_safe_eq_clamp_dec_full (x : Int) : dec x 173 1812 = clamp (dec x 0 2047) 988 2012 := by
  rw [dec_eq, dec_eq, clamp_eq_max_min (by decide), clamp_eq_max_min (by decide), clamp_eq_max_min (by decide)]
  omega

/-- Encoding a normalized value and decoding it safely clamps it: in the safe range `dec_full_ceil` gives it back, and
outside the encode is a bound. -/
theorem dec_safe_enc (n : Int) : dec (enc n) 173 1812 = clamp n 988 2012 := by
  rw [clamp_eq_max_min (by decide)]
  rcases le_or_gt n 988 with hlow | hlow
  · rw [enc_of_le hlow, min_eq_left (by omega), max_eq_left hlow]
    decide
  rcases le_or_gt 2012 n with hhigh | hhigh
  · rw [enc_of_ge hhigh, min_eq_right hhigh]
    decide
  · rw [dec_safe_eq_clamp_dec_full, enc_of_safe hlow.le hhigh.le, dec_full_ceil (by omega) (by omega),
      clamp_eq_max_min (by decide)]

/-- Settles O38: `dec_safe_enc` at the full decode is that decode clamped, which is the safe decode. -/
theorem safeViewFollowsFromTheFullRead : Obligations.SafeViewFollowsFromTheFullRead := fun v =>
  ⟨dec_safe_eq_clamp_dec_full v.toNat, by rw [dec_safe_enc, dec_safe_eq_clamp_dec_full]⟩

/-- `CDEC.SAFE` answers the safe decode of its operand. -/
theorem exec_cdecSafe_of_dec {val : ValueOperand} {v : Nat} (hv : dec val.toNat 173 1812 = v) :
    exec (.cdecSafe val) s = .next (s.answered (BitVec.ofNat 16 v)) := by
  rw [dec_safe_natCast, Int.ofNat_inj] at hv
  rw [exec_cdecSafe, hv]

/-- `CENC` of any operand and `CDEC.SAFE` of its answer complete in turn, and the last answer is the operand clamped. -/
theorem exec_cenc_cdecSafe (val : ValueOperand) (s : State) :
    ∃ raw : Response, exec (.cenc val) s = .next (s.answered raw) ∧
      ∀ u : State, exec (.cdecSafe raw) u = .next (u.answered (BitVec.ofNat 16 (max 988 (min val.toNat 2012)))) := by
  obtain ⟨hmin, hmax⟩ := enc_bounds val.toNat
  obtain ⟨r, hr⟩ : ∃ r : Nat, enc val.toNat = r := Int.eq_ofNat_of_zero_le (le_trans (by decide) hmin)
  have hraw : (BitVec.ofNat 16 r).toNat = r := by
    rw [BitVec.toNat_ofNat]
    omega
  refine ⟨BitVec.ofNat 16 r, exec_cenc hr, fun u => exec_cdecSafe_of_dec ?_⟩
  rw [hraw, ← hr, dec_safe_enc, clamp_eq_max_min (by decide)]
  omega

/-- Settles O48: by `exec_cenc_cdecSafe` the last response is the `READ` response clamped, and by
`dec_safe_eq_clamp_dec_full` that is the safe decode of the slot. -/
theorem safeViewIsObtainedThroughTheResponses : Obligations.SafeViewIsObtainedThroughTheResponses := by
  intro s idx j hb hj hvisible
  have hread := exec_read_slot hb hj hvisible
  generalize hfull : BitVec.ofNat 16 ((s.slot j).toNat * 5 / 8 + 880) = full at hread
  have hfullNat : full.toNat = (s.slot j).toNat * 5 / 8 + 880 := by
    rw [← hfull, BitVec.toNat_ofNat]
    omega
  obtain ⟨raw, hcenc, hcdec⟩ := exec_cenc_cdecSafe full (s.answered full)
  refine ⟨_, _, _, full, raw, _, hread, rfl, hcenc, rfl, hcdec _, rfl, rfl, ?_, exec_cdecSafe_of_dec ?_⟩
  · rw [BitVec.toNat_ofNat]
    omega
  · have hslot : ((s.slot j).setWidth 16).toNat = (s.slot j).toNat := BitVec.toNat_setWidth_of_le (by decide)
    rw [hslot, dec_safe_eq_clamp_dec_full, dec_full_natCast, clamp_eq_max_min (by decide)]
    omega

end Sys2Proof.Machine
end

section
/-! Reset, and what the block performs before and between its updates (70_reset_and_hazards.md R170, R173, R175, R176). -/

namespace Sys2Proof.Machine

variable {s : State} {op : Record → Instr} {m : Mode}

/-! Completion (R175, lines 1 to 4). -/

/-- A decode completes exactly in a session of its mode (lines 1 and 2). -/
theorem DecodeOperation.exists_next_iff (hop : DecodeOperation op m) (r : Record) :
    (∃ t, exec (op r) s = .next t) ↔ s.bound = true ∧ s.mode = m := by
  constructor
  · rintro ⟨t, h⟩
    obtain ⟨hb, hm, -⟩ := hop.next h
    exact ⟨hb, hm⟩
  · rintro ⟨hb, hm⟩
    exact ⟨_, hop.completes r hb hm⟩

/-- `READ` completes exactly in a session and at a visible index (lines 1 and 3). -/
theorem exists_exec_read_next_iff {idx : IndexOperand} :
    (∃ t, exec (.read idx) s = .next t) ↔ s.bound = true ∧ idx.toNat < visibleSlots s.mode := by
  constructor
  · rintro ⟨t, h⟩
    obtain ⟨hb, j, hj, -⟩ := execRead_next.1 h
    exact ⟨hb, (resolveIndex_some.1 hj).1⟩
  · rintro ⟨hb, hvisible⟩
    exact ⟨_, exec_read_slot (j := ⟨idx.toNat, hvisible.trans_le (visibleSlots_le _)⟩) hb rfl hvisible⟩

/-- The initialisations and the codec complete in every state (R130, R131, R110). -/
theorem exists_exec_next_of_init_or_codec {i : Instr} (s : State)
    (hi : i = .initStd ∨ i = .initExt ∨ ∃ val, i = .cdecFull val ∨ i = .cdecSafe val ∨ i = .cenc val) :
    ∃ t, exec i s = .next t := by
  rcases hi with rfl | rfl | ⟨val, rfl | rfl | rfl⟩
  exacts [⟨_, execInitStd_next.2 rfl⟩, ⟨_, execInitExt_next.2 rfl⟩, ⟨_, execCdecFull_next.2 rfl⟩,
    ⟨_, execCdecSafe_next.2 rfl⟩, ⟨_, execCenc_next.2 rfl⟩]

/-- An operation completes exactly where the host may issue it. -/
theorem exists_exec_next_iff (i : Instr) (s : State) :
    (∃ t, exec i s = .next t) ↔ operationInContract s i = true := by
  cases i with
  | initStd | initExt | cdecFull val | cdecSafe val | cenc val =>
    exact iff_of_true (exists_exec_next_of_init_or_codec s (by simp)) rfl
  | decStd r => simp [DecodeOperation.std.exists_next_iff, operationInContract]
  | decExtLo r => simp [DecodeOperation.extLo.exists_next_iff, operationInContract]
  | decExtHi r => simp [DecodeOperation.extHi.exists_next_iff, operationInContract]
  | read idx => simp [exists_exec_read_next_iff, operationInContract]

theorem inContract_of_no_event (hs : s.host = []) : inContract s = true := by
  simp [inContract, hs]

theorem inContract_cons {e : HostEvent} {rest : List HostEvent} (hs : s.host = e :: rest) :
    inContract s = eventInContract s e := by
  simp [inContract, hs]

theorem eventInContract_of_instr {w : Request} {i : Instr} (hd : decode w = .instr i) :
    eventInContract s (.request w) = operationInContract s i := by
  simp [eventInContract, hd]

theorem eventInContract_of_rejected {w : Request} {d : DecodeRefusal} (hd : decode w = .rejected d) :
    eventInContract s (.request w) = false := by
  simp [eventInContract, hd]

/-- What may be issued does not depend on the events that wait. -/
theorem operationInContract_of_other_host (i : Instr) (s : State) (host : List HostEvent) :
    operationInContract { s with host := host } i = operationInContract s i := by
  cases i <;> rfl

/-- Settles O14: an idle step and a reset complete and are in contract, a word the decoder turns away neither completes nor is
in contract (line 4), and an operation completes by `exists_exec_next_iff`. -/
theorem stepCompletesExactlyInContract : Obligations.StepCompletesExactlyInContract := by
  intro s
  cases hs : s.host with
  | nil => exact iff_of_true ⟨s, step_of_no_event hs⟩ (inContract_of_no_event hs)
  | cons e rest =>
    rw [inContract_cons hs]
    cases e with
    | reset => exact iff_of_true ⟨_, step_of_reset hs⟩ rfl
    | request w =>
      cases hd : decode w with
      | rejected d => simp [step_of_rejected hs hd, eventInContract_of_rejected hd]
      | instr i =>
        rw [step_of_instr hs hd, eventInContract_of_instr hd, ← operationInContract_of_other_host i s rest]
        exact exists_exec_next_iff i _

/-! Reset and the time before the first `INIT` (R170, R173). -/

/-- Settles O15: the step of a reset is `platformReset`, which keeps the responses and the events that wait. -/
theorem resetEndsTheSession : Obligations.ResetEndsTheSession :=
  ⟨rfl, rfl, fun _ _ hs =>
    ⟨_, step_of_reset hs, platformReset_bound _, platformReset_mode _, platformReset_responses _, platformReset_host _⟩⟩

/-- Settles O42: the initialisations and the codec complete in every state; the others ask for a session first. -/
theorem beforeInitOnlyInitAndCodecArePerformed : Obligations.BeforeInitOnlyInitAndCodecArePerformed := by
  intro s hb
  refine ⟨fun i hi => exists_exec_next_of_init_or_codec s hi, ?_⟩
  rintro i (⟨r, rfl | rfl | rfl⟩ | ⟨idx, rfl⟩)
  exacts [DecodeOperation.std.notBound r hb, DecodeOperation.extLo.notBound r hb, DecodeOperation.extHi.notBound r hb,
    exec_read_notBound idx hb]

/-! Between the two halves of an update (R176). -/

/-- Settles O29: the low half writes its fields to slots 0 to 15 and leaves those from 18 up, and `READ` decodes what the slot
holds. -/
theorem readerMaySeeAStaleHighHalf : Obligations.ReaderMaySeeAStaleHighHalf := by
  intro r s hb hm
  have h := DecodeOperation.extLo.completes r hb hm
  have htb : (s.decoded .decExtLo r).bound = true := by rw [State.decoded_bound, hb]
  have htm : (s.decoded .decExtLo r).mode = .ext := by rw [State.decoded_mode, hm]
  refine ⟨_, h, fun i => ?_, fun idx hlo hhi => ?_⟩
  · have hvisible : i.val < visibleSlots (s.decoded .decExtLo r).mode := by
      rw [htm]
      exact i.isLt.trans_le (by decide)
    exact exec_read_written (j := ⟨i.val, by omega⟩) h (frameWrite_analog r i.isLt) htb hvisible
  · obtain ⟨j, hj⟩ : ∃ j : Fin 32, j.val = idx.toNat := ⟨⟨idx.toNat, hhi⟩, rfl⟩
    have hunwritten : slotWrite (.decExtLo r) j = none := frameWrite_hidden r (by omega)
    have hstale : (s.decoded .decExtLo r).slot j = s.slot j := by
      rw [State.decoded_slot, hunwritten, Option.getD_none]
    refine ⟨_, exec_read_slot hb hj (by rw [hm]; exact j.isLt), ?_⟩
    rw [← hstale]
    exact exec_read_slot htb hj (by rw [htm]; exact j.isLt)

end Sys2Proof.Machine
end
